-- ==== Sys2Proof/Word.lean ====
section
/-!
DEFINITION. The words of the unit and its two named constants: a value is 128 bits, `low` in bits 63:0 and `high` in
bits 127:64 (00_scope R5, R6, R10); a command is one 32-bit word (30_encoding R60).
-/

namespace Sys2Proof

/-- One byte of the register window (20_memory R42). -/
abbrev Byte := BitVec 8

/-- A word of the source, 64 bits (00_scope R5). -/
abbrev Word := BitVec 64

/-- A 32-bit control register or command word (10_state section 3, 30_encoding R60). -/
abbrev Word32 := BitVec 32

/-- A value: 128 bits, every pattern valid (00_scope R6). -/
abbrev U128 := BitVec 128

/-- A byte offset in the 512-byte window: the port's 9-bit offset (20_memory R40, R58). -/
abbrev Offset := BitVec 9

/-- The number of an operand register X0 to X15 (10_state R20, 30_encoding R61). -/
abbrev Reg := Fin 16

/-- `Zero` of 00_scope R7. -/
def zero128 : U128 := 0#128

/-- `Max` of 00_scope R7, that is 2^128 − 1. -/
def max128 : U128 := BitVec.allOnes 128

end Sys2Proof
end

