-- ==== Sys2Proof/Syntax.lean ====
section
/-!
DEFINITION. The twelve commands of the unit, one constructor per row of the opcode map (30_encoding R64). Register fields
are numbers below 16 by type, all legal (30_encoding R61); a field that a command's form does not use is absent.
-/

namespace Sys2Proof

/-- A command of the unit (30_encoding R64, R68): destination first, then the sources. -/
inductive Instr where
  /-- `ADD Xd, Xa, Xb` (42_arithmetic R91) -/
  | add (rd rs1 rs2 : Reg)
  /-- `SUB Xd, Xa, Xb` (42_arithmetic R92) -/
  | sub (rd rs1 rs2 : Reg)
  /-- `MUL Xd, Xa, Xb` (42_arithmetic R93) -/
  | mul (rd rs1 rs2 : Reg)
  /-- `ADD64 Xd, Xa, Xb` (42_arithmetic R94) -/
  | add64 (rd rs1 rs2 : Reg)
  /-- `SUB64 Xd, Xa, Xb` (42_arithmetic R95) -/
  | sub64 (rd rs1 rs2 : Reg)
  /-- `MUL64 Xd, Xa, Xb` (42_arithmetic R96) -/
  | mul64 (rd rs1 rs2 : Reg)
  /-- `DIV Xd, Xa, Xb` (43_division R113) -/
  | div (rd rs1 rs2 : Reg)
  /-- `MOD Xd, Xa, Xb` (43_division R114) -/
  | mod (rd rs1 rs2 : Reg)
  /-- `DIV64 Xd, Xa, Xb` (43_division R115) -/
  | div64 (rd rs1 rs2 : Reg)
  /-- `MOD64 Xd, Xa, Xb` (43_division R116) -/
  | mod64 (rd rs1 rs2 : Reg)
  /-- `LZC Xd, Xa` (41_leading_zeros R81) -/
  | lzc (rd rs1 : Reg)
  /-- `BIN2DEC Xa` (44_decimal R131) -/
  | bin2dec (rs1 : Reg)
deriving DecidableEq, Repr

end Sys2Proof
end

