-- ==== Sys2Proof/Machine/State.lean ====
section
/-!
DEFINITION. The state of the unit (10_state R20 to R33) and of the host that drives it (10_state R21, 30_encoding R69), as
plain data, with the reasons a step can stop and the state after reset.
-/

namespace Sys2Proof.Machine

/-- The opcode that the pending latch holds (10_state R32): the mnemonics of the opcode map (30_encoding R64). -/
inductive Op where
  | add | sub | mul | add64 | sub64 | mul64 | div | mod | div64 | mod64 | lzc | bin2dec
deriving DecidableEq, Repr

/-- The pending-command latch: the accepted command's opcode, its `rd`, and its operand values as they were at the accept
step (10_state R32, 30_encoding R70). `b` is 0 for LZC and BIN2DEC, which have no second operand (assumption log 9). -/
structure Pending where
  op : Op
  rd : Reg
  a : U128
  b : U128
deriving DecidableEq, Repr

/-- The causes of the unit (60_exceptions R140 to R142). -/
inductive Cause where
  | divideByZero | illegalCommand | writeWhileBusy
deriving DecidableEq, Repr

/-- The sizes of a host transaction: 1, 2, 4 or 8 bytes (20_memory R43, R58; assumption log 14). -/
inductive Size where
  | b1 | b2 | b4 | b8
deriving DecidableEq, Repr

/-- The direction of a host transaction (20_memory R44, R58). -/
inductive Dir where
  | read | write
deriving DecidableEq, Repr

/-- One line of the host's program (30_encoding R69), or an assertion of the reset input (20_memory R58, 70_reset R170). -/
inductive HostLine where
  /-- `sb`, `sh`, `sw`, `sd`: `HostWrite(off, n, v)`; only the low `n` bytes of `v` count (assumption log 11) -/
  | write (off : Offset) (n : Size) (v : Word)
  /-- `lb`, `lh`, `lw`, `ld`: `HostRead(off, n)` -/
  | read (off : Offset) (n : Size)
  /-- `wait`: read STATUS, and do so again while its bit 0 is 1 -/
  | wait
  /-- the reset input is asserted between two transactions -/
  | reset
deriving DecidableEq, Repr

/-- Who moves in a step: one of the two agents (20_memory R50). -/
inductive Turn where
  | host | unit
deriving DecidableEq, Repr

/-- The port's response to a legal transaction (20_memory R58): ok, with the data for a read (as a 64-bit number). -/
inductive Answer where
  | ok
  | data (n : Size) (v : Word)
deriving DecidableEq, Repr

/-- The model faults (60_exceptions R145): each ends the run; none is a cause of the unit, and none is recorded in STATUS. -/
inductive Fault where
  /-- Raised by a host read of an operand-register or DECBUF byte (20_memory R45), or by a command that reads an operand byte
  (30_encoding R70), that nothing has written since reset (10_state R31; 93 U4, treatment `fault`). Safe: the spec's own model
  fault, it errs toward unprovable (60_exceptions R145). -/
  | unwrittenRead
  /-- Raised by an illegal host access (20_memory R44, R46). Safe: the spec's own model fault, it errs toward unprovable. -/
  | hostBusError (off : Offset) (n : Size) (dir : Dir)
deriving DecidableEq, Repr

/-- Reasons to give an instruction no meaning. -/
inductive Refusal where
  /-- Raised by an arm of `exec` whose command has no meaning yet; no arm does. Safe: the machine stops. -/
  | notModelled (mnemonic : String)
deriving DecidableEq, Repr

/-- The unit's state, then the host's, then the model's own count of free values. -/
structure State where
  /-- X0 to X15 (10_state R20) -/
  x : Vector U128 16
  /-- which bytes of X0 to X15 have been written since reset: bit `j` of entry `n` is byte `j` of `X[n]` (10_state R31) -/
  xMarks : Vector (BitVec 16) 16
  /-- STATUS.BUSY (10_state R23) -/
  busy : Bool
  /-- STATUS.HALT (10_state R24) -/
  halt : Bool
  /-- STATUS.C (10_state R25) -/
  c : Bool
  /-- STATUS.V (10_state R25) -/
  v : Bool
  /-- STATUS.CAUSE (10_state R22, R24) -/
  cause : BitVec 4
  /-- FAULTINFO (10_state R26) -/
  faultInfo : Word32
  /-- DECLEN (10_state R27) -/
  decLen : Word32
  /-- DECBUF[0] to DECBUF[39] (10_state R30) -/
  decBuf : Vector Byte 40
  /-- which bytes of DECBUF have been written since reset: bit `i` is DECBUF[i] (10_state R31) -/
  decMarks : BitVec 40
  /-- the pending-command latch, empty or full (10_state R32) -/
  pending : Option Pending
  /-- the host's remaining lines (10_state R21, 30_encoding R69) -/
  host : List HostLine
  /-- who moves in the coming steps; after the last, a busy unit completes and otherwise the host moves (assumption log 6) -/
  turns : List Turn
  /-- what the port has answered, newest first (20_memory R58, assumption log 13) -/
  answers : List Answer
  /-- how many free values have been drawn (20_memory R47, assumption log 3) -/
  draws : Nat
deriving DecidableEq, Repr

/-- The state right after reset (10_state R33): every field at the value the spec gives; X0 to X15 and DECBUF hold 0, which
the spec does not give and nothing can read while unmarked (assumption log 1); the host's fields are empty (log 7). -/
def State.reset : State where
  x := Vector.replicate 16 0#128
  xMarks := Vector.replicate 16 0#16
  busy := false
  halt := false
  c := false
  v := false
  cause := 0#4
  faultInfo := 0#32
  decLen := 0#32
  decBuf := Vector.replicate 40 0#8
  decMarks := 0#40
  pending := none
  host := []
  turns := []
  answers := []
  draws := 0

end Sys2Proof.Machine
end

