-- ==== Sys2Proof/Machine/Primitives.lean ====
section
/-!
DEFINITION. The notation and internal primitives of 00_scope section 5 (R10 to R17) and the leading-zero count (41 R80):
the words of a value, shifts and comparison, the 64-bit and wide divisions, the decimal text. None is a command by itself.
-/

namespace Sys2Proof.Machine

/-- `r.lo = r[63:0]` (00_scope R11). -/
def lo (r : U128) : Word := r.extractLsb' 0 64

/-- `r.hi = r[127:64]` (00_scope R11). -/
def hi (r : U128) : Word := r.extractLsb' 64 64

/-- The value `{high, low}` (00_scope R10). -/
def join (high low : Word) : U128 := high ++ low

/-- `u128(n)`: the value with `val = n mod 2^128` (00_scope R11). -/
def u128 (n : Nat) : U128 := BitVec.ofNat 128 n

/-- `from64(v) = {0, v}` (00_scope R11). -/
def from64 (v : Word) : U128 := v.setWidth 128

/-- `lo64(n) = n mod 2^64` (00_scope R11). -/
def lo64 (n : Nat) : Nat := n % 2 ^ 64

/-- `hi64(n) = floor(n / 2^64) mod 2^64` (00_scope R11). -/
def hi64 (n : Nat) : Nat := n / 2 ^ 64 % 2 ^ 64

/-- The most-significant zero bits of the low `k` bits of `w`, bit `k − 1` first. -/
def leadingZerosBelow (w : Word) : Nat → Nat
  | 0 => 0
  | k + 1 => if w.getLsbD k then 0 else 1 + leadingZerosBelow w k

/-- `lzc64(w)`: the number of most-significant zero bits before the first set bit, 64 for 0 (00_scope R13). -/
def lzc64 (w : Word) : Nat := leadingZerosBelow w 64

/-- `leading_zeros(x)` by the source's word-level definition (41_leading_zeros R80, R81). -/
def leadingZeros (x : U128) : Nat :=
  if hi x = 0 ∧ lo x = 0 then 128 else if hi x ≠ 0 then lzc64 (hi x) else 64 + lzc64 (lo x)

/-- `div64x64(n, d)` for `d ≠ 0`; no answer for `d = 0` (00_scope R14, 93 U13: never called so;
assumption log 18). -/
def div64x64 (n d : Word) : Option (Word × Word) :=
  if d = 0 then none else some (n / d, n % d)

/-- `divide_wide(hi, lo, d)` for `d ≠ 0` and `hi < d`; no answer outside that precondition (00_scope R14, 93 U13,
assumption log 18). -/
def divideWide (h l d : Word) : Option (Word × Word) :=
  if d = 0 ∨ d ≤ h then none
  else
    let n := h.toNat * 2 ^ 64 + l.toNat
    some (BitVec.ofNat 64 (n / d.toNat), BitVec.ofNat 64 (n % d.toNat))

/-- `lsh(x, n)` word by word, with `n = 0` apart and Zero from 128 on (00_scope R15, 90_conflicts C3). -/
def lsh (x : U128) (n : Nat) : U128 :=
  if n = 0 then x
  else if n < 64 then join (hi x <<< n ||| lo x >>> (64 - n)) (lo x <<< n)
  else if n < 128 then join (lo x <<< (n - 64)) 0
  else zero128

/-- `rsh(x, n)`, the structural mirror of `lsh` (00_scope R15). -/
def rsh (x : U128) (n : Nat) : U128 :=
  if n = 0 then x
  else if n < 64 then join (hi x >>> n) (lo x >>> n ||| hi x <<< (64 - n))
  else if n < 128 then join 0 (hi x >>> (n - 64))
  else zero128

/-- `cmp(x, y)`: `high` first, then `low` on a tie (00_scope R16). -/
def cmp (x y : U128) : Ordering :=
  (compare (hi x).toNat (hi y).toNat).then (compare (lo x).toNat (lo y).toNat)

/-- The decimal digits of `n`, most significant first, for `n < 10^fuel`. -/
def decDigits : Nat → Nat → List Nat
  | 0, _ => []
  | fuel + 1, n => if n < 10 then [n] else decDigits fuel (n / 10) ++ [n % 10]

/-- `dec(n)` for `0 ≤ n < 2^128` as its digits, most significant first (00_scope R17, 44_decimal R130); 39 digits are
enough (00_scope R6). -/
def dec (n : Nat) : List Nat := decDigits 39 n

/-- The byte of a decimal digit: `0x30 + d` (00_scope R17). -/
def digitByte (d : Nat) : Byte := 0x30#8 + BitVec.ofNat 8 d

end Sys2Proof.Machine
end

