-- ==== Sys2Proof/Machine/Flags.lean ====
section
/-!
DEFINITION. Every flag computation of the spec (10_state R25): the carry, borrow and overflow outputs of the arithmetic
family, each as the pseudocode of its command gives it. All sums and products are exact, in the natural numbers.
-/

namespace Sys2Proof.Machine

/-- The carry into the high word of `a + b`: `s0 div 2^64` (42_arithmetic R91). -/
def lowCarry (a b : Word) : Nat := (a.toNat + b.toNat) / 2 ^ 64

/-- The borrow into the high word of `a − b` (42_arithmetic R92). -/
def lowBorrow (a b : Word) : Nat := if a.toNat < b.toNat then 1 else 0

/-- ADD's C: `s1 div 2^64`, the carry out of bit 127 (42_arithmetic R91). -/
def addCarry (a b : U128) : Bool :=
  (((hi a).toNat + (hi b).toNat + lowCarry (lo a) (lo b)) / 2 ^ 64) == 1

/-- SUB's C: `b1`, the borrow out of bit 127 (42_arithmetic R92). -/
def subBorrow (a b : U128) : Bool :=
  decide ((hi a).toNat < (hi b).toNat + lowBorrow (lo a) (lo b))

/-- MUL's V: the exact product is at least 2^128 (42_arithmetic R93). -/
def mulOverflow (a b : U128) : Bool := decide (2 ^ 128 ≤ a.toNat * b.toNat)

/-- ADD64's C, with the 64-bit operand `d` (42_arithmetic R94). -/
def add64Carry (a : U128) (d : Word) : Bool := (((hi a).toNat + lowCarry (lo a) d) / 2 ^ 64) == 1

/-- SUB64's C, with the 64-bit operand `d` (42_arithmetic R95). -/
def sub64Borrow (a : U128) (d : Word) : Bool := decide ((hi a).toNat < lowBorrow (lo a) d)

/-- MUL64's V, with the 64-bit operand `d` (42_arithmetic R96). -/
def mul64Overflow (a : U128) (d : Word) : Bool := decide (2 ^ 128 ≤ a.toNat * d.toNat)

end Sys2Proof.Machine
end

