-- ==== Sys2Proof/WellFormed.lean ====
section
/-!
DEFINITION. Which command words are legal, written from 30_encoding R65 alone (its list of unassigned opcodes, its reserved
bits, its unused fields), apart from the decoder, which is written from the opcode map R64. A command as syntax has no
ill-formed term; a 32-bit word has, and `illegalWord` is the check.
-/

namespace Sys2Proof

/-- `w[7:0]` is one of the values that 30_encoding R65 lists as no opcode. -/
def unassignedOpcode (w : Word32) : Bool :=
  let op := (w.extractLsb' 0 8).toNat
  op == 0x00 || op == 0x04 || (0x08 ≤ op && op ≤ 0x0F) || (0x14 ≤ op && op ≤ 0x1F)
    || (0x21 ≤ op && op ≤ 0x2F) || (0x31 ≤ op && op ≤ 0xFF)

/-- `w[31:20] ≠ 0` (30_encoding R65). -/
def reservedBitsSet (w : Word32) : Bool := w.extractLsb' 20 12 != 0

/-- The form is FMT2 (LZC) and `w[19:16] ≠ 0` (30_encoding R60, R65). -/
def unusedFieldSetFmt2 (w : Word32) : Bool := w.extractLsb' 0 8 == 0x20 && w.extractLsb' 16 4 != 0

/-- The form is FMT1 (BIN2DEC) and `w[11:8] ≠ 0` or `w[19:16] ≠ 0` (30_encoding R60, R65). -/
def unusedFieldSetFmt1 (w : Word32) : Bool :=
  w.extractLsb' 0 8 == 0x30 && (w.extractLsb' 8 4 != 0 || w.extractLsb' 16 4 != 0)

/-- A command word is illegal when any of the four conditions of 30_encoding R65 holds. -/
def illegalWord (w : Word32) : Bool :=
  unassignedOpcode w || reservedBitsSet w || unusedFieldSetFmt2 w || unusedFieldSetFmt1 w

end Sys2Proof
end

