-- ==== Sys2Proof/Decode.lean ====
section
/-!
DEFINITION. The decoder and, after it, the encoder, both from the field layout of 30_encoding R60 and the opcode map R64.
The decoder is total: every word is a command or is refused with a named reason (each of them is IllegalCommand to the
unit, 30_encoding R65).
-/

namespace Sys2Proof

/-- Why a word is no command (30_encoding R65). The unit reports all of these as IllegalCommand; the names are the model's
(assumption log 12). -/
inductive DecodeError where
  /-- `w[31:20] ≠ 0` -/
  | reservedBits
  /-- `w[7:0]` is not in the opcode map R64 -/
  | unassignedOpcode
  /-- a field that the command's form does not use is nonzero -/
  | unusedField
  /-- the byte list ends before the 32-bit word does (never of a CMD write, which is 4 bytes by 20_memory R44) -/
  | truncated
deriving DecidableEq, Repr

/-- The 4-bit register field of `w` whose lowest bit is `i` (30_encoding R60, R61). -/
def regField (w : Word32) (i : Nat) : Reg := (w.extractLsb' i 4).toFin

/-- The command that a word stands for (30_encoding R60, R64), or why it is illegal (R65). -/
def decode (w : Word32) : Except DecodeError Instr :=
  let op := w.extractLsb' 0 8
  let rd := regField w 8
  let rs1 := regField w 12
  let rs2 := regField w 16
  if w.extractLsb' 20 12 ≠ 0 then .error .reservedBits
  else if op = 0x01 then .ok (.add rd rs1 rs2)
  else if op = 0x02 then .ok (.sub rd rs1 rs2)
  else if op = 0x03 then .ok (.mul rd rs1 rs2)
  else if op = 0x05 then .ok (.add64 rd rs1 rs2)
  else if op = 0x06 then .ok (.sub64 rd rs1 rs2)
  else if op = 0x07 then .ok (.mul64 rd rs1 rs2)
  else if op = 0x10 then .ok (.div rd rs1 rs2)
  else if op = 0x11 then .ok (.mod rd rs1 rs2)
  else if op = 0x12 then .ok (.div64 rd rs1 rs2)
  else if op = 0x13 then .ok (.mod64 rd rs1 rs2)
  else if op = 0x20 then if rs2 = 0 then .ok (.lzc rd rs1) else .error .unusedField
  else if op = 0x30 then if rd = 0 ∧ rs2 = 0 then .ok (.bin2dec rs1) else .error .unusedField
  else .error .unassignedOpcode

/-- The word that four bytes at rising offsets hold, least significant byte first (20_memory R43). -/
def wordOfBytes (b0 b1 b2 b3 : Byte) : Word32 := b3 ++ b2 ++ b1 ++ b0

/-- The decoder on bytes: the command in the first four and the bytes that follow it (30_encoding R66: every command is
exactly 32 bits). -/
def decodeBytes : List Byte → Except DecodeError (Instr × List Byte)
  | b0 :: b1 :: b2 :: b3 :: rest =>
    match decode (wordOfBytes b0 b1 b2 b3) with
    | .ok i => .ok (i, rest)
    | .error e => .error e
  | _ => .error .truncated

/-- `enc = op | rd << 8 | rs1 << 12 | rs2 << 16` (30_encoding R60). -/
def packFields (op : Byte) (rd rs1 rs2 : Reg) : Word32 :=
  op.setWidth 32 ||| BitVec.ofNat 32 rd.val <<< 8 ||| BitVec.ofNat 32 rs1.val <<< 12
    ||| BitVec.ofNat 32 rs2.val <<< 16

/-- The word of a command, every unused field 0 (30_encoding R60, R64, R68). -/
def encode : Instr → Word32
  | .add rd rs1 rs2 => packFields 0x01 rd rs1 rs2
  | .sub rd rs1 rs2 => packFields 0x02 rd rs1 rs2
  | .mul rd rs1 rs2 => packFields 0x03 rd rs1 rs2
  | .add64 rd rs1 rs2 => packFields 0x05 rd rs1 rs2
  | .sub64 rd rs1 rs2 => packFields 0x06 rd rs1 rs2
  | .mul64 rd rs1 rs2 => packFields 0x07 rd rs1 rs2
  | .div rd rs1 rs2 => packFields 0x10 rd rs1 rs2
  | .mod rd rs1 rs2 => packFields 0x11 rd rs1 rs2
  | .div64 rd rs1 rs2 => packFields 0x12 rd rs1 rs2
  | .mod64 rd rs1 rs2 => packFields 0x13 rd rs1 rs2
  | .lzc rd rs1 => packFields 0x20 rd rs1 0
  | .bin2dec rs1 => packFields 0x30 0 rs1 0

/-- The bytes of a word at rising offsets (20_memory R43). -/
def bytesOfWord (w : Word32) : List Byte :=
  [w.extractLsb' 0 8, w.extractLsb' 8 8, w.extractLsb' 16 8, w.extractLsb' 24 8]

/-- The command that `decodeBytes` reads from a word of `nbits` bits numbered as spec/opcode_table.json numbers them (bits
above `nbits` are 0), laid out as a CMD write lays it out. -/
def decodeTableWord (nbits w : Nat) : Option Instr :=
  match decodeBytes (bytesOfWord (BitVec.ofNat 32 (w % 2 ^ nbits))) with
  | .ok (i, _) => some i
  | .error _ => none

end Sys2Proof
end

