-- ==== Sys2Proof/Config.lean ====
section
/-!
DEFINITION. What the spec fixes once for the unit, and what it leaves open: the identity constant, the window's base and
the free values that reads while busy return.
-/

namespace Sys2Proof

/-- The constant that ID reads as (10_state R28). -/
def Config.idValue : Word32 := 0x55313238#32

/-- OPEN: which 512-byte block of the host's address map the window sits in (20_memory R40). No body: nothing can be
proved about it. Assumption log 16. -/
opaque Config.windowBlock : Nat

/-- `WINDOW_BASE`, a multiple of `0x200` (20_memory R40). -/
def Config.windowBase : Nat := 0x200 * Config.windowBlock

/-- The free values of 20_memory R47, one for each draw. No body: nothing can be proved about them. Assumption log 3. -/
opaque Config.freeRead : Nat → Word

end Sys2Proof
end

