-- ==== Sys2Proof/Machine/Ops.lean ====
section
/-!
DEFINITION. The named operations over the state: reading and writing an operand register, recording a fault (60_exceptions
R143), leaving the halted state by reset (60_exceptions R148, 70_reset R170), accepting a command (30_encoding R70) and
writing a completed command's results (30_encoding R72).
-/

namespace Sys2Proof.Machine

/-- `X[r]` (00_scope R12). -/
def State.reg (s : State) (r : Reg) : U128 := s.x[r.val]

/-- The written marks of the bytes of `X[r]` (10_state R31). -/
def State.marks (s : State) (r : Reg) : BitVec 16 := s.xMarks[r.val]

/-- `X[r] <- v`, all 16 bytes marked written (10_state R31, 30_encoding R72). -/
def State.setReg (s : State) (r : Reg) (v : U128) : State :=
  { s with x := s.x.set r.val v, xMarks := s.xMarks.set r.val (BitVec.allOnes 16) }

/-- The STATUS.CAUSE code of a cause (60_exceptions R140 to R142). -/
def causeCode : Cause → BitVec 4
  | .divideByZero => 1#4
  | .illegalCommand => 2#4
  | .writeWhileBusy => 3#4

/-- Fault recording, `raise cause(info)` (60_exceptions R143): three fields and nothing else. A halted unit keeps its first
fault (10_state R24, 60_exceptions R144, R149). -/
def recordFault (cause : Cause) (info : Word32) (s : State) : State :=
  if s.halt then s else { s with halt := true, cause := causeCode cause, faultInfo := info }

/-- The reset step (70_reset R170): every piece of the unit's state at its reset value, from any state; the host's lines,
turns and record, and the count of draws, are not the unit's and stay. It is the only way out of the halted state
(60_exceptions R148). -/
def assertReset (s : State) : State :=
  { State.reset with host := s.host, turns := s.turns, answers := s.answers, draws := s.draws }

/-- `pending <- (op, rd, a, b); STATUS.BUSY <- 1`, the end of the accept step (30_encoding R70). -/
def accept (op : Op) (rd : Reg) (a b : U128) (s : State) : State :=
  { s with pending := some ⟨op, rd, a, b⟩, busy := true }

/-- What every completion ends with: the two flags, the latch emptied, BUSY cleared (30_encoding R72, 10_state R25). -/
def finish (c v : Bool) (s : State) : State :=
  { s with c := c, v := v, pending := none, busy := false }

/-- The completion of a command with a destination: its result and its flags (30_encoding R72). -/
def writeResult (rd : Reg) (result : U128) (c v : Bool) (s : State) : State :=
  finish c v (s.setReg rd result)

/-- The first two checks of a CMD write (30_encoding R70, 60_exceptions R146): a halted unit ignores it, a busy one records
WriteWhileBusy(0x100) and discards it. -/
def whenReady (s : State) (k : Host.Outcome State Fault Refusal) : Host.Outcome State Fault Refusal :=
  if s.halt then .next s
  else if s.busy then .next (recordFault .writeWhileBusy 0x100#32 s)
  else k

/-- The port answers (20_memory R58). -/
def State.answer (s : State) (a : Answer) : State := { s with answers := a :: s.answers }

end Sys2Proof.Machine
end

