-- ==== Sys2Proof/Machine/Operands.lean ====
section
/-!
DEFINITION. Operand assembly (30_encoding R62), the bytes each form reads (R63), and the accept step of each operand form
(R70, checks (4) and (5) of 60_exceptions R146).
-/

namespace Sys2Proof.Machine

/-- All 128 bits of `X[r]`, read only when all its 16 bytes are written (30_encoding R62, R63; 10_state R31). -/
def fullOperand (r : Reg) (s : State) : Option U128 :=
  if s.marks r = BitVec.allOnes 16 then some (s.reg r) else none

/-- `from64(X[r].lo)`, read only when bytes 0 to 7 are written; bytes 8 to 15 are not read (30_encoding R62, R63). -/
def mixedOperand (r : Reg) (s : State) : Option U128 :=
  if (s.marks r).extractLsb' 0 8 = BitVec.allOnes 8 then some (from64 (lo (s.reg r))) else none

/-- The accept step of a two-operand command whose second operand is `b`, not yet checked for being written. -/
def acceptWith (op : Op) (rd : Reg) (a b : Option U128) (s : State) : Host.Outcome State Fault Refusal :=
  match a, b with
  | some a, some b => .next (accept op rd a b s)
  | _, _ => .fault .unwrittenRead

/-- As `acceptWith`, with the divisor tested after the operands are known to be written: a zero divisor records
DivideByZero with the command word and nothing is accepted (30_encoding R70, 43_division R110, 60_exceptions R140). -/
def acceptDivision (op : Op) (w : Word32) (rd : Reg) (a b : Option U128) (s : State) :
    Host.Outcome State Fault Refusal :=
  match a, b with
  | some a, some b =>
    if b = 0#128 then .next (recordFault .divideByZero w s) else .next (accept op rd a b s)
  | _, _ => .fault .unwrittenRead

/-- Form of ADD, SUB, MUL: two full operands (30_encoding R62). -/
def submitFull (op : Op) (rd rs1 rs2 : Reg) (s : State) : Host.Outcome State Fault Refusal :=
  whenReady s (acceptWith op rd (fullOperand rs1 s) (fullOperand rs2 s) s)

/-- Form of ADD64, SUB64, MUL64: a full operand and a 64-bit one (30_encoding R62). -/
def submitMixed (op : Op) (rd rs1 rs2 : Reg) (s : State) : Host.Outcome State Fault Refusal :=
  whenReady s (acceptWith op rd (fullOperand rs1 s) (mixedOperand rs2 s) s)

/-- Form of DIV and MOD: two full operands, the divisor not zero. -/
def submitDivision (op : Op) (w : Word32) (rd rs1 rs2 : Reg) (s : State) :
    Host.Outcome State Fault Refusal :=
  whenReady s (acceptDivision op w rd (fullOperand rs1 s) (fullOperand rs2 s) s)

/-- Form of DIV64 and MOD64: a full dividend and a 64-bit divisor, not zero. -/
def submitDivision64 (op : Op) (w : Word32) (rd rs1 rs2 : Reg) (s : State) :
    Host.Outcome State Fault Refusal :=
  whenReady s (acceptDivision op w rd (fullOperand rs1 s) (mixedOperand rs2 s) s)

/-- Form of LZC and BIN2DEC: one full operand; the latch's second value is unused and 0 (assumption log 9). -/
def submitUnary (op : Op) (rd rs1 : Reg) (s : State) : Host.Outcome State Fault Refusal :=
  whenReady s (acceptWith op rd (fullOperand rs1 s) (some 0#128) s)

end Sys2Proof.Machine
end

