-- ==== Sys2Proof/Machine/Arithmetic.lean ====
section
/-!
DEFINITION. ADD, SUB, MUL, ADD64, SUB64, MUL64 (42_arithmetic R91 to R97): the result of each by the word-level pseudocode
of its rule, the meaning of each as a submitted command (the accept step), and its completion.
-/

namespace Sys2Proof.Machine

/-- `{s1 mod 2^64, s0 mod 2^64}` (42_arithmetic R91). -/
def addResult (a b : U128) : U128 :=
  let s0 := (lo a).toNat + (lo b).toNat
  let s1 := (hi a).toNat + (hi b).toNat + lowCarry (lo a) (lo b)
  join (BitVec.ofNat 64 (s1 % 2 ^ 64)) (BitVec.ofNat 64 (s0 % 2 ^ 64))

/-- `{d1, d0}` (42_arithmetic R92); subtraction of words is modulo 2^64. -/
def subResult (a b : U128) : U128 :=
  let d0 := lo a - lo b
  let d1 := hi a - hi b - BitVec.ofNat 64 (lowBorrow (lo a) (lo b))
  join d1 d0

/-- `{hi, lo64(p)}`, the cross terms truncated to 64 bits before they are summed (42_arithmetic R93). -/
def mulResult (a b : U128) : U128 :=
  let p := (lo a).toNat * (lo b).toNat
  let h := (hi64 p + lo64 ((lo a).toNat * (hi b).toNat) + lo64 ((hi a).toNat * (lo b).toNat)) % 2 ^ 64
  join (BitVec.ofNat 64 h) (BitVec.ofNat 64 (lo64 p))

/-- The direct form of `a + from64(d)` (42_arithmetic R94). -/
def add64Result (a : U128) (d : Word) : U128 :=
  let s0 := (lo a).toNat + d.toNat
  let s1 := (hi a).toNat + lowCarry (lo a) d
  join (BitVec.ofNat 64 (s1 % 2 ^ 64)) (BitVec.ofNat 64 (s0 % 2 ^ 64))

/-- The direct form of `a − from64(d)` (42_arithmetic R95). -/
def sub64Result (a : U128) (d : Word) : U128 :=
  let d0 := lo a - d
  let d1 := hi a - BitVec.ofNat 64 (lowBorrow (lo a) d)
  join d1 d0

/-- The direct form of `a * from64(d)` (42_arithmetic R96). -/
def mul64Result (a : U128) (d : Word) : U128 :=
  let p := (lo a).toNat * d.toNat
  let h := (hi64 p + lo64 ((hi a).toNat * d.toNat)) % 2 ^ 64
  join (BitVec.ofNat 64 h) (BitVec.ofNat 64 (lo64 p))

/-- `ADD Xd, Xa, Xb` submitted (42_arithmetic R91, 30_encoding R70). -/
def execAdd (rd rs1 rs2 : Reg) (s : State) : Host.Outcome State Fault Refusal :=
  submitFull .add rd rs1 rs2 s

/-- ADD completed: C is the carry, V is 0 (42_arithmetic R91). -/
def completeAdd (rd : Reg) (a b : U128) (s : State) : State :=
  writeResult rd (addResult a b) (addCarry a b) false s

/-- `SUB Xd, Xa, Xb` submitted (42_arithmetic R92, 30_encoding R70). -/
def execSub (rd rs1 rs2 : Reg) (s : State) : Host.Outcome State Fault Refusal :=
  submitFull .sub rd rs1 rs2 s

/-- SUB completed: C is the borrow, V is 0 (42_arithmetic R92). -/
def completeSub (rd : Reg) (a b : U128) (s : State) : State :=
  writeResult rd (subResult a b) (subBorrow a b) false s

/-- `MUL Xd, Xa, Xb` submitted (42_arithmetic R93, 30_encoding R70). -/
def execMul (rd rs1 rs2 : Reg) (s : State) : Host.Outcome State Fault Refusal :=
  submitFull .mul rd rs1 rs2 s

/-- MUL completed: C is 0, V is the overflow (42_arithmetic R93). -/
def completeMul (rd : Reg) (a b : U128) (s : State) : State :=
  writeResult rd (mulResult a b) false (mulOverflow a b) s

/-- `ADD64 Xd, Xa, Xb` submitted (42_arithmetic R94, 30_encoding R70). -/
def execAdd64 (rd rs1 rs2 : Reg) (s : State) : Host.Outcome State Fault Refusal :=
  submitMixed .add64 rd rs1 rs2 s

/-- ADD64 completed (42_arithmetic R94). -/
def completeAdd64 (rd : Reg) (a b : U128) (s : State) : State :=
  writeResult rd (add64Result a (lo b)) (add64Carry a (lo b)) false s

/-- `SUB64 Xd, Xa, Xb` submitted (42_arithmetic R95, 30_encoding R70). -/
def execSub64 (rd rs1 rs2 : Reg) (s : State) : Host.Outcome State Fault Refusal :=
  submitMixed .sub64 rd rs1 rs2 s

/-- SUB64 completed (42_arithmetic R95). -/
def completeSub64 (rd : Reg) (a b : U128) (s : State) : State :=
  writeResult rd (sub64Result a (lo b)) (sub64Borrow a (lo b)) false s

/-- `MUL64 Xd, Xa, Xb` submitted (42_arithmetic R96, 30_encoding R70). -/
def execMul64 (rd rs1 rs2 : Reg) (s : State) : Host.Outcome State Fault Refusal :=
  submitMixed .mul64 rd rs1 rs2 s

/-- MUL64 completed (42_arithmetic R96). -/
def completeMul64 (rd : Reg) (a b : U128) (s : State) : State :=
  writeResult rd (mul64Result a (lo b)) false (mul64Overflow a (lo b)) s

end Sys2Proof.Machine
end

