-- ==== Sys2Proof/Machine/Division.lean ====
section
/-!
DEFINITION. DIV, MOD, DIV64, MOD64 (43_division R110 to R116): the quotient and remainder of the contract, the meaning of
each as a submitted command, and its completion. Then the source's reference algorithm (R117 to R120), which is normative
only through its results: no completion calls it (00_scope R9).
-/

namespace Sys2Proof.Machine

/-- `u128(val(a) div val(b))` (43_division R111, R113). Only completions with `val(b) ≥ 1` occur (R110, assumption log 10). -/
def quotient (a b : U128) : U128 := u128 (a.toNat / b.toNat)

/-- `u128(val(a) mod val(b))` (43_division R112, R114). -/
def remainder (a b : U128) : U128 := u128 (a.toNat % b.toNat)

/-- `u128(val(a) div d)` for a 64-bit divisor (43_division R115). -/
def quotient64 (a : U128) (d : Word) : U128 := u128 (a.toNat / d.toNat)

/-- `from64(val(a) mod d)` for a 64-bit divisor: the high word is 0 (43_division R116). -/
def remainder64 (a : U128) (d : Word) : U128 := from64 (BitVec.ofNat 64 (a.toNat % d.toNat))

/-- `DIV Xd, Xa, Xb` submitted (43_division R113, 30_encoding R70). -/
def execDiv (rd rs1 rs2 : Reg) (s : State) : Host.Outcome State Fault Refusal :=
  submitDivision .div (encode (.div rd rs1 rs2)) rd rs1 rs2 s

/-- DIV completed: C = V = 0 (43_division R113). -/
def completeDiv (rd : Reg) (a b : U128) (s : State) : State :=
  writeResult rd (quotient a b) false false s

/-- `MOD Xd, Xa, Xb` submitted (43_division R114, 30_encoding R70). -/
def execMod (rd rs1 rs2 : Reg) (s : State) : Host.Outcome State Fault Refusal :=
  submitDivision .mod (encode (.mod rd rs1 rs2)) rd rs1 rs2 s

/-- MOD completed: C = V = 0 (43_division R114). -/
def completeMod (rd : Reg) (a b : U128) (s : State) : State :=
  writeResult rd (remainder a b) false false s

/-- `DIV64 Xd, Xa, Xb` submitted (43_division R115, 30_encoding R70). -/
def execDiv64 (rd rs1 rs2 : Reg) (s : State) : Host.Outcome State Fault Refusal :=
  submitDivision64 .div64 (encode (.div64 rd rs1 rs2)) rd rs1 rs2 s

/-- DIV64 completed: C = V = 0 (43_division R115). -/
def completeDiv64 (rd : Reg) (a b : U128) (s : State) : State :=
  writeResult rd (quotient64 a (lo b)) false false s

/-- `MOD64 Xd, Xa, Xb` submitted (43_division R116, 30_encoding R70). -/
def execMod64 (rd rs1 rs2 : Reg) (s : State) : Host.Outcome State Fault Refusal :=
  submitDivision64 .mod64 (encode (.mod64 rd rs1 rs2)) rd rs1 rs2 s

/-- MOD64 completed: C = V = 0 (43_division R116). -/
def completeMod64 (rd : Reg) (a b : U128) (s : State) : State :=
  writeResult rd (remainder64 a (lo b)) false false s

/-- The restoring loop over the dividend's bits `i − 1` down to 0, from a running quotient and remainder of 128 bits each
(43_division R119, 90_conflicts C4). -/
def restoringLoop (a b : U128) : Nat → U128 → U128 → U128 × U128
  | 0, q, r => (q, r)
  | i + 1, q, r =>
    let r' := r <<< 1 ||| (BitVec.ofBool (a.getLsbD i)).setWidth 128
    if b.toNat ≤ r'.toNat then restoringLoop a b i (q ||| 1#128 <<< i) (r' - b)
    else restoringLoop a b i q r'

/-- The bit-serial long division over all 128 positions (43_division R119): quotient and remainder. -/
def restoringDivide (a b : U128) : U128 × U128 := restoringLoop a b 128 0#128 0#128

/-- The same loop with the initial all-zero iterations skipped by `leading_zeros(b)` (43_division R120, 41_leading_zeros
R82): the first `127 − leading_zeros(b)` bits of `a` are the running remainder at once. -/
def skippingDivide (a b : U128) : U128 × U128 :=
  if b = 0#128 then restoringDivide a b
  else restoringLoop a b (leadingZeros b + 1) 0#128 (rsh a (leadingZeros b + 1))

/-- Division of the normalized operands, the dividend kept in 256 bits, with the remainder shifted back (43_division R120). -/
def normalizedDivide (a b : U128) : U128 × U128 :=
  let n := leadingZeros b
  let wide : BitVec 256 := a.setWidth 256 <<< n
  let divisor : BitVec 256 := (lsh b n).setWidth 256
  ((wide / divisor).setWidth 128, rsh ((wide % divisor).setWidth 128) n)

/-- The 128-by-64 case in two steps (43_division R118); no answer where a primitive has none. -/
def twoStepDivide (a : U128) (d : Word) : Option (U128 × U128) :=
  match div64x64 (hi a) d with
  | none => none
  | some (qHi, r1) =>
    match divideWide r1 (lo a) d with
    | none => none
    | some (qLo, r) => some (join qHi qLo, from64 r)

/-- The source's path selection, with `b.hi = 0` added to case 1 (43_division R117, 90_conflicts C1); no answer for a zero
divisor, which no accepted command has (R110). -/
def referenceDivide (a b : U128) : Option (U128 × U128) :=
  if b = 0#128 then none
  else if hi a = 0 ∧ hi b = 0 then
    match div64x64 (lo a) (lo b) with
    | none => none
    | some (q0, r0) => some (from64 q0, from64 r0)
  else if hi b = 0 then twoStepDivide a (lo b)
  else if cmp b a = .gt then some (zero128, a)
  else some (restoringDivide a b)

end Sys2Proof.Machine
end

