-- ==== Sys2Proof/Machine/Decimal.lean ====
section
/-!
DEFINITION. BIN2DEC (44_decimal R130, R131): its meaning as a submitted command and its completion; then the source's
reference algorithm by groups of 19 digits (R132), normative only through its result.
-/

namespace Sys2Proof.Machine

/-- The byte of DECBUF at `i` for the text `t`: digit `i`, most significant first, or `0x00` after the text (44_decimal
R131). -/
def decByte (t : List Nat) (i : Nat) : Byte :=
  match t[i]? with
  | some d => digitByte d
  | none => 0#8

/-- All 40 bytes of DECBUF for the text `t` (44_decimal R131, 10_state R30). -/
def decBufOf (t : List Nat) : Vector Byte 40 := Vector.ofFn fun i => decByte t i.val

/-- `BIN2DEC Xa` submitted (44_decimal R131, 30_encoding R70); the word's `rd` field is 0. -/
def execBin2dec (rs1 : Reg) (s : State) : Host.Outcome State Fault Refusal :=
  submitUnary .bin2dec 0 rs1 s

/-- BIN2DEC completed: DECLEN, all of DECBUF with its marks, C = V = 0; no operand register (44_decimal R131). -/
def completeBin2dec (a : U128) (s : State) : State :=
  let t := dec a.toNat
  finish false false
    { s with decLen := BitVec.ofNat 32 t.length, decBuf := decBufOf t, decMarks := BitVec.allOnes 40 }

/-- `T = 10^19`, the largest power of ten below 2^64 (44_decimal R132). -/
def groupBase : Word := 0x8AC7230489E80000#64

/-- The groups of 19 digits, least significant first, by repeated MOD64 and DIV64 by `T` (44_decimal R132); at most
`fuel` of them, and 3 are enough. -/
def decGroups : Nat → U128 → List Nat
  | 0, _ => []
  | fuel + 1, v =>
    let rest := quotient64 v groupBase
    (remainder64 v groupBase).toNat :: if rest = 0#128 then [] else decGroups fuel rest

/-- `n` as exactly `k` decimal digits, zero-padded, most significant first (44_decimal R132). -/
def paddedDigits : Nat → Nat → List Nat
  | 0, _ => []
  | k + 1, n => paddedDigits k (n / 10) ++ [n % 10]

/-- The text of the groups: the most significant without leading zeros, every other padded to 19 digits (44_decimal R132). -/
def groupsText : List Nat → List Nat
  | [] => []
  | [g] => dec g
  | g :: gs => groupsText gs ++ paddedDigits 19 g

/-- The source's conversion of `a` (44_decimal R132). -/
def referenceDecimal (a : U128) : List Nat := groupsText (decGroups 3 a)

end Sys2Proof.Machine
end

