-- ==== Sys2Proof/Machine/LeadingZeros.lean ====
section
/-!
DEFINITION. LZC (41_leading_zeros R81): its meaning as a submitted command and its completion.
-/

namespace Sys2Proof.Machine

/-- `LZC Xd, Xa` submitted (41_leading_zeros R81, 30_encoding R70). -/
def execLzc (rd rs1 : Reg) (s : State) : Host.Outcome State Fault Refusal :=
  submitUnary .lzc rd rs1 s

/-- LZC completed: the count in the low word, C = V = 0 (41_leading_zeros R81). -/
def completeLzc (rd : Reg) (a : U128) (s : State) : State :=
  writeResult rd (from64 (BitVec.ofNat 64 (leadingZeros a))) false false s

end Sys2Proof.Machine
end

