-- ==== Sys2Proof/Machine/Completion.lean ====
section
/-!
DEFINITION. The completion step (30_encoding R72): the pending command's results, its flags, the latch emptied, BUSY
cleared, in one atomic unit step.
-/

namespace Sys2Proof.Machine

/-- `Complete()` for the pending command `p` (30_encoding R72). -/
def complete (p : Pending) (s : State) : State :=
  match p.op with
  | .add => completeAdd p.rd p.a p.b s
  | .sub => completeSub p.rd p.a p.b s
  | .mul => completeMul p.rd p.a p.b s
  | .add64 => completeAdd64 p.rd p.a p.b s
  | .sub64 => completeSub64 p.rd p.a p.b s
  | .mul64 => completeMul64 p.rd p.a p.b s
  | .div => completeDiv p.rd p.a p.b s
  | .mod => completeMod p.rd p.a p.b s
  | .div64 => completeDiv64 p.rd p.a p.b s
  | .mod64 => completeMod64 p.rd p.a p.b s
  | .lzc => completeLzc p.rd p.a s
  | .bin2dec => completeBin2dec p.a s

/-- A unit step: the completion when BUSY = 1, also in a halted unit (30_encoding R72, 60_exceptions R144); an idle unit
holds its state (60_exceptions R157). BUSY = 1 with an empty latch, which no run reaches, holds too (assumption log 10). -/
def unitStep (s : State) : State :=
  match s.busy, s.pending with
  | true, some p => complete p s
  | _, _ => s

end Sys2Proof.Machine
end

