-- ==== Sys2Proof/Machine/Dispatch.lean ====
section
/-!
DEFINITION. The meaning of each command: what the CMD write that submits it does (30_encoding R70).
-/

namespace Sys2Proof.Machine

def exec (i : Instr) (s : State) : Host.Outcome State Fault Refusal :=
  match i with
  | .add rd rs1 rs2 => Sys2Proof.Machine.execAdd rd rs1 rs2 s
  | .sub rd rs1 rs2 => Sys2Proof.Machine.execSub rd rs1 rs2 s
  | .mul rd rs1 rs2 => Sys2Proof.Machine.execMul rd rs1 rs2 s
  | .add64 rd rs1 rs2 => Sys2Proof.Machine.execAdd64 rd rs1 rs2 s
  | .sub64 rd rs1 rs2 => Sys2Proof.Machine.execSub64 rd rs1 rs2 s
  | .mul64 rd rs1 rs2 => Sys2Proof.Machine.execMul64 rd rs1 rs2 s
  | .div rd rs1 rs2 => Sys2Proof.Machine.execDiv rd rs1 rs2 s
  | .mod rd rs1 rs2 => Sys2Proof.Machine.execMod rd rs1 rs2 s
  | .div64 rd rs1 rs2 => Sys2Proof.Machine.execDiv64 rd rs1 rs2 s
  | .mod64 rd rs1 rs2 => Sys2Proof.Machine.execMod64 rd rs1 rs2 s
  | .lzc rd rs1 => Sys2Proof.Machine.execLzc rd rs1 s
  | .bin2dec rs1 => Sys2Proof.Machine.execBin2dec rs1 s

end Sys2Proof.Machine
end

