-- ==== Sys2Proof/Machine/Window.lean ====
section
/-!
DEFINITION. The register window: its address map (20_memory R41), which accesses are legal (R44), the bytes of X0 to X15
and DECBUF in it (R42, R43), operand-register writes (R45), and what a legal read returns (R45, R47).
-/

namespace Sys2Proof.Machine

/-- What lives in a row of the address map (20_memory R41). -/
inductive RowKind where
  | operands | cmd | status | faultInfo | decLen | id | unmapped | decBuf
deriving DecidableEq, Repr

/-- A row of the address map: its first and last byte offset and what lives there (20_memory R41). -/
structure MapRow where
  first : Nat
  last : Nat
  kind : RowKind
deriving DecidableEq, Repr

/-- The address map of the window (20_memory R41). -/
def addressMap : List MapRow :=
  [⟨0x000, 0x0FF, .operands⟩, ⟨0x100, 0x103, .cmd⟩, ⟨0x104, 0x107, .status⟩, ⟨0x108, 0x10B, .faultInfo⟩,
   ⟨0x10C, 0x10F, .decLen⟩, ⟨0x110, 0x113, .id⟩, ⟨0x114, 0x11F, .unmapped⟩, ⟨0x120, 0x147, .decBuf⟩,
   ⟨0x148, 0x1FF, .unmapped⟩]

/-- How many bytes a transaction of a size has (20_memory R43). -/
def sizeBytes : Size → Nat
  | .b1 => 1
  | .b2 => 2
  | .b4 => 4
  | .b8 => 8

/-- The access column of the address map: which widths and directions a row allows (20_memory R41, R44). -/
def rowAllows (kind : RowKind) (n : Size) (dir : Dir) : Bool :=
  match kind, dir with
  | .operands, _ => true
  | .cmd, .write => n == .b4
  | .status, .read => n == .b4
  | .faultInfo, .read => n == .b4
  | .decLen, .read => n == .b4
  | .id, .read => n == .b4
  | .decBuf, .read => true
  | _, _ => false

/-- The row in which all the bytes of a naturally aligned access lie, if there is one (20_memory R44). -/
def accessRow (off : Offset) (n : Size) : Option RowKind :=
  if off.toNat % sizeBytes n = 0 then
    (addressMap.find? fun row => decide (row.first ≤ off.toNat ∧ off.toNat + sizeBytes n ≤ row.last + 1)).map
      (fun row => row.kind)
  else none

/-- What a legal access reaches, and none for an illegal one (20_memory R44). -/
def legalRow (off : Offset) (n : Size) (dir : Dir) : Option RowKind :=
  match accessRow off n with
  | some kind => if rowAllows kind n dir then some kind else none
  | none => none

/-- The offset in the window of a byte address of the host, if it lies in the window (20_memory R40). -/
def offsetOfAddress (address : Nat) : Option Offset :=
  if Config.windowBase ≤ address ∧ address < Config.windowBase + 0x200 then
    some (BitVec.ofNat 9 (address - Config.windowBase))
  else none

/-- Byte `j` of a value: bits `[8j+7:8j]` (20_memory R42). -/
def byteOf (r : U128) (j : Nat) : Byte := r.extractLsb' (8 * j) 8

/-- The value with byte `j` replaced (20_memory R42). -/
def setByteOf (r : U128) (j : Nat) (b : Byte) : U128 :=
  (r &&& ~~~((0xFF#128) <<< (8 * j))) ||| (b.setWidth 128) <<< (8 * j)

/-- The byte of X0 to X15 or of DECBUF at a window offset, if it has been written (20_memory R42, R43; 10_state R31); none
at every other offset. -/
def windowByte (s : State) (off : Nat) : Option Byte :=
  if h : off < 0x100 then
    let r : Reg := ⟨off / 16, by omega⟩
    if (s.marks r).getLsbD (off % 16) then some (byteOf (s.reg r) (off % 16)) else none
  else if h : 0x120 ≤ off ∧ off < 0x148 then
    if s.decMarks.getLsbD (off - 0x120) then some (s.decBuf[off - 0x120]) else none
  else none

/-- The `n` bytes from `off` on, least significant first (20_memory R43), if every one has been written (R45). -/
def windowBytes (s : State) (off : Nat) : Nat → Option Word
  | 0 => some 0#64
  | k + 1 =>
    match windowBytes s off k, windowByte s (off + k) with
    | some v, some b => some (v ||| (b.setWidth 64) <<< (8 * k))
    | _, _ => none

/-- One operand-register byte written and marked (20_memory R45); an offset outside `0x000`-`0x0FF` writes nothing. -/
def storeByte (off : Nat) (b : Byte) (s : State) : State :=
  if h : off < 0x100 then
    let r : Reg := ⟨off / 16, by omega⟩
    { s with
      x := s.x.set r.val (setByteOf (s.reg r) (off % 16) b)
      xMarks := s.xMarks.set r.val (s.marks r ||| 1#16 <<< (off % 16)) }
  else s

/-- The low `n` bytes of `v` written from `off` on, byte `k` at `off + k` (20_memory R43, R45). -/
def storeBytes (off : Nat) (v : Word) : Nat → State → State
  | 0, s => s
  | k + 1, s => storeByte (off + k) (v.extractLsb' (8 * k) 8) (storeBytes off v k s)

/-- A legal host write to an operand register: ignored when halted, WriteWhileBusy(off) when busy, else the bytes and their
marks (20_memory R45, 60_exceptions R142, R144, R146). -/
def writeOperands (off : Offset) (n : Size) (v : Word) (s : State) : State :=
  if s.halt then s
  else if s.busy then recordFault .writeWhileBusy (off.setWidth 32) s
  else storeBytes off.toNat v (sizeBytes n) s

/-- The STATUS word: BUSY, HALT, C, V in bits 0 to 3, CAUSE in bits 7:4, bits 31:8 zero (10_state R22). -/
def statusWord (s : State) : Word32 :=
  0#24 ++ s.cause ++ BitVec.ofBool s.v ++ BitVec.ofBool s.c ++ BitVec.ofBool s.halt ++ BitVec.ofBool s.busy

/-- The current contents of the 32-bit register of a row (10_state R22, R26, R27, R28); 0 for a row that has none, which no
legal read reaches. -/
def rowWord (kind : RowKind) (s : State) : Word32 :=
  match kind with
  | .status => statusWord s
  | .faultInfo => s.faultInfo
  | .decLen => s.decLen
  | .id => Config.idValue
  | _ => 0#32

/-- The access reads bytes that completion of the pending command will write, other than STATUS.C and STATUS.V: its
destination register, or DECBUF and DECLEN for BIN2DEC (20_memory R47). Only a busy unit has such bytes. They are read as free
values whether or not they are marked written, DECLEN's bits 31:6 too (assumption log 4 and 5). -/
def readsPendingResult (kind : RowKind) (off : Offset) (s : State) : Bool :=
  match s.busy, s.pending with
  | true, some p =>
    match kind with
    | .operands => p.op != .bin2dec && off.toNat / 16 == p.rd.val
    | .decBuf => p.op == .bin2dec
    | .decLen => p.op == .bin2dec
    | _ => false
  | _, _ => false

/-- The low `n` bytes of a word. -/
def truncateTo (n : Size) (v : Word) : Word := (v.setWidth (8 * sizeBytes n)).setWidth 64

/-- The free value that the next draw gives (20_memory R47). -/
def nextDraw (s : State) : Word := Config.freeRead s.draws

/-- One more free value drawn. -/
def State.drawn (s : State) : State := { s with draws := s.draws + 1 }

/-- STATUS as a busy unit shows it: C and V are a free draw, every other bit is exact (20_memory R47). -/
def busyStatusWord (s : State) : Word32 :=
  statusWord { s with c := (nextDraw s).getLsbD 2, v := (nextDraw s).getLsbD 3 }

/-- The value a legal read returns, as a 64-bit number, and the state after it, in which only the count of draws can
differ (20_memory R45, R47, R48). -/
def readRow (kind : RowKind) (off : Offset) (n : Size) (s : State) : Host.Outcome (Word × State) Fault Refusal :=
  if readsPendingResult kind off s then .next (truncateTo n (nextDraw s), s.drawn)
  else
    match kind with
    | .operands | .decBuf =>
      match windowBytes s off.toNat (sizeBytes n) with
      | some v => .next (v, s)
      | none => .fault .unwrittenRead
    | .status =>
      if s.busy then .next ((busyStatusWord s).setWidth 64, s.drawn)
      else .next ((statusWord s).setWidth 64, s)
    | _ => .next ((rowWord kind s).setWidth 64, s)

/-- `HostRead(off, n)`: the value and the state after it, or a bus error (20_memory R43 to R47). -/
def readWindow (off : Offset) (n : Size) (s : State) : Host.Outcome (Word × State) Fault Refusal :=
  match legalRow off n .read with
  | some kind => readRow kind off n s
  | none => .fault (.hostBusError off n .read)

end Sys2Proof.Machine
end

