-- ==== Sys2Proof/Machine/Bus.lean ====
section
/-!
DEFINITION. What the host does to the unit: the CMD write (30_encoding R70), a host transaction (20_memory R43 to R47) and
one line of the host's program (30_encoding R69); and which agent moves (20_memory R50).
-/

namespace Sys2Proof.Machine

/-- `OnCmdWrite(w)` (30_encoding R70): a legal word is the submission of its command; an illegal word is IllegalCommand(w)
after the checks for HALT and BUSY (60_exceptions R146). -/
def cmdWrite (w : Word32) (s : State) : Host.Outcome State Fault Refusal :=
  match decode w with
  | .ok i => exec i s
  | .error _ => whenReady s (.next (recordFault .illegalCommand w s))

/-- `HostWrite(off, n, v)`: a bus error, a CMD write of the low 32 bits of `v`, or an operand-register write; a legal write
is answered ok (20_memory R43 to R46, R58). -/
def hostWrite (off : Offset) (n : Size) (v : Word) (s : State) : Host.Outcome State Fault Refusal :=
  match legalRow off n .write with
  | some .cmd => cmdWrite (v.setWidth 32) (s.answer .ok)
  | some .operands => .next (writeOperands off n v (s.answer .ok))
  | _ => .fault (.hostBusError off n .write)

/-- `HostRead(off, n)`: a bus error, or the value as the port's answer (20_memory R43 to R47, R58). -/
def hostRead (off : Offset) (n : Size) (s : State) : Host.Outcome State Fault Refusal :=
  match readWindow off n s with
  | .next (v, s') => .next (s'.answer (.data n v))
  | .fault r => .fault r
  | .refused r => .refused r

/-- One turn of `wait`: read STATUS; if bit 0 is 1, the line stays to be performed again (30_encoding R69). -/
def hostWait (s : State) : Host.Outcome State Fault Refusal :=
  match readWindow 0x104#9 .b4 s with
  | .next (v, s') =>
    let s'' := s'.answer (.data .b4 v)
    .next (if v.getLsbD 0 then { s'' with host := .wait :: s''.host } else s'')
  | .fault r => .fault r
  | .refused r => .refused r

/-- One line of the host's program (30_encoding R69), or the reset input (70_reset R170). -/
def performLine (line : HostLine) (s : State) : Host.Outcome State Fault Refusal :=
  match line with
  | .write off n v => hostWrite off n v s
  | .read off n => hostRead off n s
  | .wait => hostWait s
  | .reset => .next (assertReset s)

/-- The host moves: its next line is taken and performed; a host with no line left does nothing. -/
def hostStep (s : State) : Host.Outcome State Fault Refusal :=
  match s.host with
  | [] => .next s
  | line :: rest => performLine line { s with host := rest }

/-- The agent that moves next, and the state with its turn taken (20_memory R50, assumption log 6): the first of `turns`;
when there is none, the unit if it is busy (so that a pending command completes, 30_encoding R72), else the host. -/
def takeTurn (s : State) : Turn × State :=
  match s.turns with
  | t :: rest => (t, { s with turns := rest })
  | [] => (if s.busy then .unit else .host, s)

/-- What the agent whose turn it is does. -/
def agentStep (t : Turn) (s : State) : Host.Outcome State Fault Refusal :=
  match t with
  | .unit => .next (unitStep s)
  | .host => hostStep s

/-- Every byte of `X[r]` marked written, its value as it is (withFetchWord, assumption log 8). -/
def State.markReg (s : State) (r : Reg) : State :=
  { s with xMarks := s.xMarks.set r.val (BitVec.allOnes 16) }

/-- The host about to submit the word `w`: its turn, the CMD write as its next line, and the bytes of the two registers
that `w` names as sources already written, as 70_reset R173 (3) demands (assumption log 8). -/
def placeCommand (w : Word32) (s : State) : State :=
  let s' := (s.markReg (regField w 12)).markReg (regField w 16)
  { s' with host := .write 0x100#9 .b4 (w.setWidth 64) :: s.host, turns := .host :: s.turns }

end Sys2Proof.Machine
end

