-- ==== Sys2Proof/Machine/Step.lean ====
section
/-!
DEFINITION. One step: the agent whose turn it is moves. And where a step finds its next command: the unit fetches nothing
(10_state R21), so it is the host's next line.
-/

namespace Sys2Proof.Machine

/-- One step of the unit and its host (20_memory R49, R50). -/
def step (s : State) : Host.Outcome State Fault Refusal :=
  agentStep (takeTurn s).1 (takeTurn s).2

/-- The state in which the very next step submits the word `w` of `nbits` bits: the host's CMD write of it (assumption log
7 and 8). -/
def State.withFetchWord (s : State) (nbits w : Nat) : State :=
  placeCommand (BitVec.ofNat 32 (w % 2 ^ nbits)) s

end Sys2Proof.Machine
end

