-- ==== Sys2Proof/Machine/HostProgram.lean ====
section
/-!
DEFINITION. The assembler of commands (30_encoding R68) and the pseudo-instructions of host programs (R69), each as the
lines it expands to.
-/

namespace Sys2Proof.Machine

/-- The word the assembler emits for a mnemonic and its registers, destination first (30_encoding R68). -/
def assemble (mnemonic : String) (registers : List Reg) : Option Word32 :=
  match registers with
  | [d, a, b] =>
    if mnemonic = "ADD" then some (encode (.add d a b))
    else if mnemonic = "SUB" then some (encode (.sub d a b))
    else if mnemonic = "MUL" then some (encode (.mul d a b))
    else if mnemonic = "ADD64" then some (encode (.add64 d a b))
    else if mnemonic = "SUB64" then some (encode (.sub64 d a b))
    else if mnemonic = "MUL64" then some (encode (.mul64 d a b))
    else if mnemonic = "DIV" then some (encode (.div d a b))
    else if mnemonic = "MOD" then some (encode (.mod d a b))
    else if mnemonic = "DIV64" then some (encode (.div64 d a b))
    else if mnemonic = "MOD64" then some (encode (.mod64 d a b))
    else none
  | [d, a] => if mnemonic = "LZC" then some (encode (.lzc d a)) else none
  | [a] => if mnemonic = "BIN2DEC" then some (encode (.bin2dec a)) else none
  | _ => none

/-- The offset of a byte of `X[n]` (20_memory R42). -/
def regOffset (n : Reg) (j : Nat) : Offset := BitVec.ofNat 9 (0x010 * n.val + j)

/-- A command line: `sw 0x100, enc` (30_encoding R69). -/
def commandLine (i : Instr) : HostLine := .write 0x100#9 .b4 ((encode i).setWidth 64)

/-- `ldx Xn, v`: two 8-byte writes, low word first (30_encoding R69). -/
def ldx (n : Reg) (v : U128) : List HostLine :=
  [.write (regOffset n 0) .b8 (lo v), .write (regOffset n 8) .b8 (hi v)]

/-- `rdx Xn`: two 8-byte reads, low word first (30_encoding R69). -/
def rdx (n : Reg) : List HostLine := [.read (regOffset n 0) .b8, .read (regOffset n 8) .b8]

/-- The value of `rdx Xn`, `{second, first}` of the two 8-byte reads (30_encoding R69), from what the port has answered, newest
first; none where the last two answers are not such reads. -/
def rdxValue : List Answer → Option U128
  | .data .b8 second :: .data .b8 first :: _ => some (join second first)
  | _ => none

/-- `CLR Xn`: `ldx Xn, 0` (30_encoding R69). -/
def clr (n : Reg) : List HostLine := ldx n zero128

/-- `DIVMOD Xq, Xr, Xa, Xb`: DIV, wait, MOD; legal only when `q ≠ a` and `q ≠ b` (30_encoding R69, 70_reset R177). -/
def divmod (q r a b : Reg) : Option (List HostLine) :=
  if q = a ∨ q = b then none
  else some [commandLine (.div q a b), .wait, commandLine (.mod r a b)]

/-- `DIVMOD64 Xq, Xr, Xa, Xb`: as DIVMOD with DIV64 and MOD64 (30_encoding R69). -/
def divmod64 (q r a b : Reg) : Option (List HostLine) :=
  if q = a ∨ q = b then none
  else some [commandLine (.div64 q a b), .wait, commandLine (.mod64 r a b)]

end Sys2Proof.Machine
end

