-- ==== Sys2Proof/Safety.lean ====
section
/-!
DEFINITION. The terms that claims use: when the unit takes a command, which bytes are written, the state a completed command
leaves, which commands divide, and the invariant of the unit's state (10_state R22, R23, R24, R26, R27, R30, R32).
-/

namespace Sys2Proof.Machine

/-- The unit is neither halted nor busy, so a CMD write passes the first two checks (60_exceptions R146). -/
def Ready (s : State) : Prop := s.halt = false ∧ s.busy = false

/-- Every one of the 16 bytes of `X[r]` has been written since reset (10_state R31, 30_encoding R63). -/
def FullyWritten (r : Reg) (s : State) : Prop := ∀ j, j < 16 → (s.marks r).getLsbD j = true

/-- Bytes 0 to 7 of `X[r]` have been written since reset (10_state R31, 30_encoding R63). -/
def LowWritten (r : Reg) (s : State) : Prop := ∀ j, j < 8 → (s.marks r).getLsbD j = true

/-- `s` with the command accepted: in the latch, BUSY set (30_encoding R70). -/
def withPending (op : Op) (rd : Reg) (a b : U128) (s : State) : State :=
  { s with busy := true, pending := some ⟨op, rd, a, b⟩ }

/-- `s` with a completed command's result in `X[rd]`, every byte of it marked, the two flags, the latch empty and BUSY clear
(30_encoding R72). -/
def withResult (rd : Reg) (result : U128) (c v : Bool) (s : State) : State :=
  { s with
    x := s.x.set rd.val result, xMarks := s.xMarks.set rd.val (BitVec.allOnes 16)
    c := c, v := v, busy := false, pending := none }

/-- `s` with a fault recorded: HALT, CAUSE and FAULTINFO, nothing else (60_exceptions R143). -/
def withFault (code : BitVec 4) (info : Word32) (s : State) : State :=
  { s with halt := true, cause := code, faultInfo := info }

/-- DIV, MOD, DIV64 and MOD64, the commands that can raise DivideByZero (60_exceptions R140). -/
def isDivision : Instr → Bool
  | .div _ _ _ | .mod _ _ _ | .div64 _ _ _ | .mod64 _ _ _ => true
  | _ => false

/-- The first source register of a command (30_encoding R60). -/
def sourceOne : Instr → Reg
  | .add _ a _ | .sub _ a _ | .mul _ a _ | .add64 _ a _ | .sub64 _ a _ | .mul64 _ a _ | .div _ a _ | .mod _ a _
  | .div64 _ a _ | .mod64 _ a _ | .lzc _ a | .bin2dec a => a

/-- The second source register of a command that reads all of it (30_encoding R62). -/
def sourceTwoFull : Instr → Option Reg
  | .add _ _ b | .sub _ _ b | .mul _ _ b | .div _ _ b | .mod _ _ b => some b
  | _ => none

/-- The second source register of a command that reads its low word only (30_encoding R62). -/
def sourceTwoLow : Instr → Option Reg
  | .add64 _ _ b | .sub64 _ _ b | .mul64 _ _ b | .div64 _ _ b | .mod64 _ _ b => some b
  | _ => none

/-- Every operand byte that a command reads has been written: the table of 30_encoding R63. -/
def OperandsWritten (i : Instr) (s : State) : Prop :=
  FullyWritten (sourceOne i) s ∧ (∀ r, sourceTwoFull i = some r → FullyWritten r s)
    ∧ (∀ r, sourceTwoLow i = some r → LowWritten r s)

/-- `val(b)` of a command's second operand (30_encoding R62); 1 for a command that has none. -/
def secondValue (i : Instr) (s : State) : Nat :=
  match sourceTwoFull i, sourceTwoLow i with
  | some r, _ => (s.reg r).toNat
  | none, some r => (lo (s.reg r)).toNat
  | none, none => 1

/-- The opcodes whose second operand is a zero-extended word (30_encoding R62). -/
def Op.isMixed : Op → Bool
  | .add64 | .sub64 | .mul64 | .div64 | .mod64 => true
  | _ => false

/-- The opcodes that divide (43_division). -/
def Op.divides : Op → Bool
  | .div | .mod | .div64 | .mod64 => true
  | _ => false

/-- The C column of the table of 10_state R25, on the latched operands. -/
def flagC (op : Op) (a b : U128) : Bool :=
  match op with
  | .add | .add64 => decide (2 ^ 128 ≤ a.toNat + b.toNat)
  | .sub | .sub64 => decide (a.toNat < b.toNat)
  | _ => false

/-- The V column of the table of 10_state R25, on the latched operands. -/
def flagV (op : Op) (a b : U128) : Bool :=
  match op with
  | .mul | .mul64 => decide (2 ^ 128 ≤ a.toNat * b.toNat)
  | _ => false

/-- `bitlength(n)`: 0 for 0, else `floor(log2 n) + 1` (41_leading_zeros R80). -/
def bitLength (n : Nat) : Nat := if n = 0 then 0 else Nat.log2 n + 1

/-- The number that a list of decimal digits writes, most significant first (44_decimal R133). -/
def numeral (digits : List Nat) : Nat := digits.foldl (fun n d => 10 * n + d) 0

/-- While BUSY = 1 exactly one command is pending, and none otherwise (10_state R23, R32). -/
def LatchMatchesBusy (s : State) : Prop := s.busy = s.pending.isSome

/-- What an accepted command's latch holds (30_encoding R62, R70; 43_division R110): a divisor that is not zero, a mixed
operand whose high word is 0. -/
def LatchLegal (s : State) : Prop :=
  ∀ p, s.pending = some p → (p.op.divides = true → p.b ≠ 0#128) ∧ (p.op.isMixed = true → hi p.b = 0#64)

/-- CAUSE holds a code from 0 to 3, and 0 exactly when HALT = 0 (10_state R22); FAULTINFO is what the cause says: 0, the word
of a division command, an illegal word, or the offset of CMD or of an operand register (10_state R26). -/
def FaultLegal (s : State) : Prop :=
  (s.halt = false ∧ s.cause = 0#4 ∧ s.faultInfo = 0#32)
  ∨ (s.halt = true ∧ s.cause = 1#4 ∧ ∃ i, isDivision i = true ∧ s.faultInfo = encode i)
  ∨ (s.halt = true ∧ s.cause = 2#4 ∧ illegalWord s.faultInfo = true)
  ∨ (s.halt = true ∧ s.cause = 3#4 ∧ s.faultInfo.toNat ≤ 0x100)

/-- No completed command leaves both flags set (10_state R25). -/
def FlagsLegal (s : State) : Prop := ¬(s.c = true ∧ s.v = true)

/-- DECLEN and DECBUF hold nothing yet, or the text of one value, all of whose 40 bytes are marked (10_state R27, R30). -/
def DecimalLegal (s : State) : Prop :=
  (s.decMarks = 0#40 ∧ s.decLen = 0#32)
  ∨ (s.decMarks = BitVec.allOnes 40 ∧
      ∃ a : U128, s.decLen = BitVec.ofNat 32 (dec a.toNat).length ∧ s.decBuf = decBufOf (dec a.toNat))

/-- The invariant of the unit's state. -/
structure Inv (s : State) : Prop where
  latchMatchesBusy : LatchMatchesBusy s
  latchLegal : LatchLegal s
  faultLegal : FaultLegal s
  flagsLegal : FlagsLegal s
  decimalLegal : DecimalLegal s

end Sys2Proof.Machine
end

