-- ==== Sys2Proof/Certificates/Slice0/Obligations.lean ====
section
/-!
DEFINITION. The statements for the provers. Each docstring names the rule of spec/ it formalises; a clause that rests on a
choice of the model names its log entry.
-/

open Sys2Proof Sys2Proof.Machine

/-! ## Encoding -/

/-- Decoding the word of a command gives the command back, with every register field at every value (30_encoding R60, R61,
R64). -/
def Obligations.DecodeOfEncode : Prop := ∀ i : Instr, decode (encode i) = .ok i

/-- A word that decodes is the word of the command it decodes to: no bit is ignored (30_encoding R60, R65). -/
def Obligations.EncodeOfDecode : Prop := ∀ (w : Word32) (i : Instr), decode w = .ok i → encode i = w

/-- The decoder refuses exactly the words that 30_encoding R65 lists as illegal, and submitting one to a unit that is
neither halted nor busy raises IllegalCommand(w), cause 2 with FAULTINFO = w (60_exceptions R141). The all-zero word is
illegal. -/
def Obligations.IllegalWordsRaiseIllegalCommand : Prop :=
  (∀ w : Word32, illegalWord w = true ↔ ∃ e, decode w = .error e)
  ∧ (∀ (w : Word32) (s : State), illegalWord w = true → Ready s → cmdWrite w s = .next (withFault 2#4 w s))
  ∧ illegalWord 0x00000000#32 = true

/-- The encodings of 95_test_vectors section 2. -/
def Obligations.SpecWordsDecode : Prop :=
  decode 0x00032101#32 = .ok (.add 1 2 3) ∧ decode 0x00032102#32 = .ok (.sub 1 2 3)
  ∧ decode 0x00032103#32 = .ok (.mul 1 2 3) ∧ decode 0x00032105#32 = .ok (.add64 1 2 3)
  ∧ decode 0x00032106#32 = .ok (.sub64 1 2 3) ∧ decode 0x00032107#32 = .ok (.mul64 1 2 3)
  ∧ decode 0x00032110#32 = .ok (.div 1 2 3) ∧ decode 0x00032111#32 = .ok (.mod 1 2 3)
  ∧ decode 0x00032112#32 = .ok (.div64 1 2 3) ∧ decode 0x00032113#32 = .ok (.mod64 1 2 3)
  ∧ decode 0x00002120#32 = .ok (.lzc 1 2) ∧ decode 0x00002030#32 = .ok (.bin2dec 2)
  ∧ decode 0x000FFF01#32 = .ok (.add 15 15 15) ∧ decode 0x00000010#32 = .ok (.div 0 0 0)
  ∧ decode 0x0000EF20#32 = .ok (.lzc 15 14) ∧ decode 0x0000F030#32 = .ok (.bin2dec 15)

/-- Every command is exactly 32 bits: the decoder takes four bytes, least significant first, needs only that word, and
leaves the rest; with fewer than four it has no command (30_encoding R66); that a byte list can
be too short, and the name of that reason, are the model's (log entry 12). -/
def Obligations.DecoderTakesExactlyOneWord : Prop :=
  (∀ (w : Word32) (rest : List Byte) (i : Instr),
    decodeBytes (bytesOfWord w ++ rest) = .ok (i, rest) ↔ decode w = .ok i)
  ∧ ∀ bytes : List Byte, bytes.length < 4 → decodeBytes bytes = .error .truncated

/-! ## Steps -/

/-- A step runs the host's next line when it is the host's turn. The 4-byte write to CMD of a word that decodes to `i` is
`exec` of `i` on the state with the turn and the line taken and the port's answer given (30_encoding R70); every other write,
a read, a wait and the reset input are `hostWrite`, `hostRead`, `hostWait` and `assertReset` of that state (R69, 70_reset
R170). A legal write is a CMD write or an operand-register write, answered ok, and a read is `readWindow`, answered with its
data (20_memory R43 to R46, R58). The turns, the host's lines and the record of answers are the model's (log entries 6, 7 and
13). -/
def Obligations.StepRunsTheSubmittedCommand : Prop :=
  (∀ (s : State) (ts : List Turn) (rest : List HostLine),
    (s.turns = .host :: ts ∨ s.turns = [] ∧ s.busy = false ∧ ts = []) →
    (∀ (v : Word) (i : Instr), s.host = .write 0x100#9 .b4 v :: rest → decode (v.setWidth 32) = .ok i →
      step s = exec i { s with turns := ts, host := rest, answers := .ok :: s.answers })
    ∧ (∀ (off : Offset) (n : Size) (v : Word), s.host = .write off n v :: rest →
        step s = hostWrite off n v { s with turns := ts, host := rest })
    ∧ (∀ (off : Offset) (n : Size), s.host = .read off n :: rest →
        step s = hostRead off n { s with turns := ts, host := rest })
    ∧ (s.host = .wait :: rest → step s = hostWait { s with turns := ts, host := rest })
    ∧ (s.host = .reset :: rest → step s = .next (assertReset { s with turns := ts, host := rest })))
  ∧ (∀ (v : Word) (s : State),
      hostWrite 0x100#9 .b4 v s = cmdWrite (v.setWidth 32) { s with answers := .ok :: s.answers })
  ∧ (∀ (off : Offset) (n : Size) (v : Word) (s : State), legalRow off n .write = some .operands →
      hostWrite off n v s = .next (writeOperands off n v { s with answers := .ok :: s.answers }))
  ∧ (∀ (off : Offset) (n : Size) (v : Word) (s s' : State), readWindow off n s = .next (v, s') →
      hostRead off n s = .next { s' with answers := .data n v :: s'.answers })
  ∧ ∀ (off : Offset) (n : Size) (s : State) (r : Fault), readWindow off n s = .fault r → hostRead off n s = .fault r

/-- Whose turn it is decides who moves: the unit's step when its turn is next, and the completion of a busy unit when no
turn is left, so that a pending command does complete (30_encoding R72; the turns are the model's, log entry 6); a host
with no line left changes nothing. -/
def Obligations.AgentsMoveInTurn : Prop :=
  (∀ (s : State) (ts : List Turn), s.turns = .unit :: ts → step s = .next (unitStep { s with turns := ts }))
  ∧ (∀ (s : State) (p : Pending), s.turns = [] → s.busy = true → s.pending = some p → step s = .next (complete p s))
  ∧ (∀ s : State, s.turns = [] → s.busy = false → s.host = [] → step s = .next s)

/-! ## What each command does: accepted, then completed -/

/-- ADD (42_arithmetic R91): accepted with both operands latched; the completion writes the sum modulo 2^128 to `X[rd]`,
C is the carry out of bit 127, V is 0, and nothing else changes. -/
def Obligations.AddRunsToItsSum : Prop :=
  ∀ (rd rs1 rs2 : Reg) (s : State), Ready s → FullyWritten rs1 s → FullyWritten rs2 s →
    exec (.add rd rs1 rs2) s = .next (withPending .add rd (s.reg rs1) (s.reg rs2) s)
    ∧ unitStep (withPending .add rd (s.reg rs1) (s.reg rs2) s)
      = withResult rd (u128 ((s.reg rs1).toNat + (s.reg rs2).toNat))
          (decide (2 ^ 128 ≤ (s.reg rs1).toNat + (s.reg rs2).toNat)) false s

/-- SUB (42_arithmetic R92): the difference modulo 2^128, C is the borrow, V is 0. -/
def Obligations.SubRunsToItsDifference : Prop :=
  ∀ (rd rs1 rs2 : Reg) (s : State), Ready s → FullyWritten rs1 s → FullyWritten rs2 s →
    exec (.sub rd rs1 rs2) s = .next (withPending .sub rd (s.reg rs1) (s.reg rs2) s)
    ∧ unitStep (withPending .sub rd (s.reg rs1) (s.reg rs2) s)
      = withResult rd (u128 ((s.reg rs1).toNat + 2 ^ 128 - (s.reg rs2).toNat))
          (decide ((s.reg rs1).toNat < (s.reg rs2).toNat)) false s

/-- MUL (42_arithmetic R93): the product modulo 2^128, C is 0, V says that the exact product is at least 2^128. -/
def Obligations.MulRunsToItsProduct : Prop :=
  ∀ (rd rs1 rs2 : Reg) (s : State), Ready s → FullyWritten rs1 s → FullyWritten rs2 s →
    exec (.mul rd rs1 rs2) s = .next (withPending .mul rd (s.reg rs1) (s.reg rs2) s)
    ∧ unitStep (withPending .mul rd (s.reg rs1) (s.reg rs2) s)
      = withResult rd (u128 ((s.reg rs1).toNat * (s.reg rs2).toNat)) false
          (decide (2 ^ 128 ≤ (s.reg rs1).toNat * (s.reg rs2).toNat)) s

/-- ADD64 (42_arithmetic R94): the right operand is the low word of `X[rs2]`; its high word is not read and need not be
written. -/
def Obligations.Add64RunsToItsSum : Prop :=
  ∀ (rd rs1 rs2 : Reg) (s : State), Ready s → FullyWritten rs1 s → LowWritten rs2 s →
    exec (.add64 rd rs1 rs2) s = .next (withPending .add64 rd (s.reg rs1) (from64 (lo (s.reg rs2))) s)
    ∧ unitStep (withPending .add64 rd (s.reg rs1) (from64 (lo (s.reg rs2))) s)
      = withResult rd (u128 ((s.reg rs1).toNat + (lo (s.reg rs2)).toNat))
          (decide (2 ^ 128 ≤ (s.reg rs1).toNat + (lo (s.reg rs2)).toNat)) false s

/-- SUB64 (42_arithmetic R95): the right operand is the low word of `X[rs2]`. -/
def Obligations.Sub64RunsToItsDifference : Prop :=
  ∀ (rd rs1 rs2 : Reg) (s : State), Ready s → FullyWritten rs1 s → LowWritten rs2 s →
    exec (.sub64 rd rs1 rs2) s = .next (withPending .sub64 rd (s.reg rs1) (from64 (lo (s.reg rs2))) s)
    ∧ unitStep (withPending .sub64 rd (s.reg rs1) (from64 (lo (s.reg rs2))) s)
      = withResult rd (u128 ((s.reg rs1).toNat + 2 ^ 128 - (lo (s.reg rs2)).toNat))
          (decide ((s.reg rs1).toNat < (lo (s.reg rs2)).toNat)) false s

/-- MUL64 (42_arithmetic R96): the right operand is the low word of `X[rs2]`. -/
def Obligations.Mul64RunsToItsProduct : Prop :=
  ∀ (rd rs1 rs2 : Reg) (s : State), Ready s → FullyWritten rs1 s → LowWritten rs2 s →
    exec (.mul64 rd rs1 rs2) s = .next (withPending .mul64 rd (s.reg rs1) (from64 (lo (s.reg rs2))) s)
    ∧ unitStep (withPending .mul64 rd (s.reg rs1) (from64 (lo (s.reg rs2))) s)
      = withResult rd (u128 ((s.reg rs1).toNat * (lo (s.reg rs2)).toNat)) false
          (decide (2 ^ 128 ≤ (s.reg rs1).toNat * (lo (s.reg rs2)).toNat)) s

/-- DIV (43_division R111, R113): with a divisor that is not zero, the quotient, exactly; C = V = 0. -/
def Obligations.DivRunsToItsQuotient : Prop :=
  ∀ (rd rs1 rs2 : Reg) (s : State), Ready s → FullyWritten rs1 s → FullyWritten rs2 s → 1 ≤ (s.reg rs2).toNat →
    exec (.div rd rs1 rs2) s = .next (withPending .div rd (s.reg rs1) (s.reg rs2) s)
    ∧ ∃ q : U128, q.toNat = (s.reg rs1).toNat / (s.reg rs2).toNat
      ∧ unitStep (withPending .div rd (s.reg rs1) (s.reg rs2) s) = withResult rd q false false s

/-- MOD (43_division R112, R114): with a divisor that is not zero, the remainder, exactly; C = V = 0. -/
def Obligations.ModRunsToItsRemainder : Prop :=
  ∀ (rd rs1 rs2 : Reg) (s : State), Ready s → FullyWritten rs1 s → FullyWritten rs2 s → 1 ≤ (s.reg rs2).toNat →
    exec (.mod rd rs1 rs2) s = .next (withPending .mod rd (s.reg rs1) (s.reg rs2) s)
    ∧ ∃ r : U128, r.toNat = (s.reg rs1).toNat % (s.reg rs2).toNat
      ∧ unitStep (withPending .mod rd (s.reg rs1) (s.reg rs2) s) = withResult rd r false false s

/-- DIV64 (43_division R115): the divisor is the low word of `X[rs2]`; the quotient can need all 128 bits. -/
def Obligations.Div64RunsToItsQuotient : Prop :=
  ∀ (rd rs1 rs2 : Reg) (s : State), Ready s → FullyWritten rs1 s → LowWritten rs2 s → 1 ≤ (lo (s.reg rs2)).toNat →
    exec (.div64 rd rs1 rs2) s = .next (withPending .div64 rd (s.reg rs1) (from64 (lo (s.reg rs2))) s)
    ∧ ∃ q : U128, q.toNat = (s.reg rs1).toNat / (lo (s.reg rs2)).toNat
      ∧ unitStep (withPending .div64 rd (s.reg rs1) (from64 (lo (s.reg rs2))) s) = withResult rd q false false s

/-- MOD64 (43_division R116): the divisor is the low word of `X[rs2]`; the result's high word is 0. -/
def Obligations.Mod64RunsToItsRemainder : Prop :=
  ∀ (rd rs1 rs2 : Reg) (s : State), Ready s → FullyWritten rs1 s → LowWritten rs2 s → 1 ≤ (lo (s.reg rs2)).toNat →
    exec (.mod64 rd rs1 rs2) s = .next (withPending .mod64 rd (s.reg rs1) (from64 (lo (s.reg rs2))) s)
    ∧ ∃ r : U128, r.toNat = (s.reg rs1).toNat % (lo (s.reg rs2)).toNat ∧ hi r = 0#64
      ∧ unitStep (withPending .mod64 rd (s.reg rs1) (from64 (lo (s.reg rs2))) s) = withResult rd r false false s

/-- LZC (41_leading_zeros R80, R81): `128 − bitlength(val(a))` in the low word of `X[rd]`, 0 in its high word; C = V = 0.
The latch's unused second value is 0, which is the model's choice (log entry 9). -/
def Obligations.LzcRunsToItsCount : Prop :=
  ∀ (rd rs1 : Reg) (s : State), Ready s → FullyWritten rs1 s →
    exec (.lzc rd rs1) s = .next (withPending .lzc rd (s.reg rs1) 0#128 s)
    ∧ ∃ n : U128, (lo n).toNat = 128 - bitLength (s.reg rs1).toNat ∧ hi n = 0#64
      ∧ unitStep (withPending .lzc rd (s.reg rs1) 0#128 s) = withResult rd n false false s

/-- BIN2DEC (44_decimal R130, R131): DECLEN is the number of decimal digits of `val(a)`, DECBUF holds the digits as ASCII
bytes, most significant first, and `0x00` after them; C = V = 0; nothing else changes. The latch's unused second value is
0, which is the model's choice (log entry 9). -/
def Obligations.Bin2decRunsToItsText : Prop :=
  ∀ (rs1 : Reg) (s : State), Ready s → FullyWritten rs1 s →
    exec (.bin2dec rs1) s = .next (withPending .bin2dec 0 (s.reg rs1) 0#128 s)
    ∧ ∃ t : State, unitStep (withPending .bin2dec 0 (s.reg rs1) 0#128 s) = t
      ∧ t = { s with
          c := false, v := false, busy := false, pending := none
          decMarks := BitVec.allOnes 40, decLen := t.decLen, decBuf := t.decBuf }
      ∧ 1 ≤ t.decLen.toNat ∧ t.decLen.toNat ≤ 39
      ∧ (s.reg rs1).toNat < 10 ^ t.decLen.toNat
      ∧ (t.decLen.toNat = 1 ∨ 10 ^ (t.decLen.toNat - 1) ≤ (s.reg rs1).toNat)
      ∧ ∀ (i : Nat) (h : i < 40), t.decBuf[i]
          = if i < t.decLen.toNat then
              0x30#8 + BitVec.ofNat 8 ((s.reg rs1).toNat / 10 ^ (t.decLen.toNat - 1 - i) % 10)
            else 0x00#8

/-! ## Faults -/

/-- A zero divisor raises DivideByZero, cause 1 with FAULTINFO = the command word, at the accept step: for DIV and MOD when
`X[rs2]` is zero, for DIV64 and MOD64 when its low word is; no other command raises it (60_exceptions R140). -/
def Obligations.ZeroDivisorRaisesDivideByZero : Prop :=
  (∀ (i : Instr) (s : State), isDivision i = true → Ready s → OperandsWritten i s → secondValue i s = 0 →
    exec i s = .next (withFault 1#4 (encode i) s))
  ∧ ∀ (i : Instr) (s t : State), isDivision i = false → s.halt = false → exec i s = .next t → t.halt = true →
    t.cause = 3#4

/-- The operand bytes that each command reads: with the unit neither halted nor busy, a command is the model fault
UnwrittenRead exactly when some byte of 30_encoding R63 for it has not been written. -/
def Obligations.UnwrittenOperandBytesStopACommand : Prop :=
  ∀ (i : Instr) (s : State), Ready s → (exec i s = .fault .unwrittenRead ↔ ¬OperandsWritten i s)

/-- A host write to CMD or to an operand register while BUSY = 1 is discarded and raises WriteWhileBusy, cause 3 with
FAULTINFO = the offset of the write; the pending command still completes and writes its results (60_exceptions R142). Which
host writes are legal and come here is StepRunsTheSubmittedCommand's to say. -/
def Obligations.WritesWhileBusyRaiseWriteWhileBusy : Prop :=
  ∀ s : State, s.halt = false → s.busy = true →
    (∀ w : Word32, cmdWrite w s = .next (withFault 3#4 0x100#32 s))
    ∧ (∀ (off : Offset) (n : Size) (v : Word), writeOperands off n v s = withFault 3#4 (off.setWidth 32) s)
    ∧ ∀ (code : BitVec 4) (info : Word32), unitStep (withFault code info s) = withFault code info (unitStep s)

/-- While HALT = 1 every host write to CMD and to an operand register is ignored, reads work as usual, a pending command
still completes, and illegal accesses are still bus errors (60_exceptions R144). -/
def Obligations.HaltedUnitIgnoresWrites : Prop :=
  ∀ s : State, s.halt = true →
    (∀ w : Word32, cmdWrite w s = .next s)
    ∧ (∀ (off : Offset) (n : Size) (v : Word), writeOperands off n v s = s)
    ∧ (∀ (off : Offset) (n : Size) (v : Word) (s' : State), off ≠ 0x104#9 →
        readWindow off n { s with halt := false } = .next (v, s') →
        readWindow off n s = .next (v, { s' with halt := true }))
    ∧ (∃ (v : Word) (s' : State), readWindow 0x104#9 .b4 s = .next (v, s') ∧ v.getLsbD 1 = true)
    ∧ (∀ p : Pending, s.busy = true → s.pending = some p → unitStep s = complete p s)
    ∧ (∀ (off : Offset) (n : Size) (v : Word), legalRow off n .write = none →
        hostWrite off n v s = .fault (.hostBusError off n .write))
    ∧ ∀ (off : Offset) (n : Size), legalRow off n .read = none → hostRead off n s = .fault (.hostBusError off n .read)

/-- Fault recording sets HALT, CAUSE and FAULTINFO and has no other effect: every CMD write and every operand write that
makes a running unit halt leaves the state before it with these three fields changed (60_exceptions R143). A pending
command is left pending and completes as usual, whether the fault or the completion comes first. -/
def Obligations.FaultsArePrecise : Prop :=
  (∀ (cause : Cause) (info : Word32) (s : State), s.halt = false →
    recordFault cause info s
      = { s with
          halt := true, faultInfo := info
          cause := (match cause with | .divideByZero => 1#4 | .illegalCommand => 2#4 | .writeWhileBusy => 3#4) })
  ∧ (∀ (w : Word32) (s t : State), s.halt = false → cmdWrite w s = .next t → t.halt = true →
      t = { s with halt := true, cause := t.cause, faultInfo := t.faultInfo })
  ∧ (∀ (off : Offset) (n : Size) (v : Word) (s : State), s.halt = false → (writeOperands off n v s).halt = true →
      writeOperands off n v s
        = { s with
            halt := true, cause := (writeOperands off n v s).cause, faultInfo := (writeOperands off n v s).faultInfo })
  ∧ ∀ (cause : Cause) (info : Word32) (s : State),
      unitStep (recordFault cause info s) = recordFault cause info (unitStep s)

/-- The order of checks within one action (60_exceptions R146): access legality, then for a CMD write HALT, BUSY, an illegal
word, an unwritten operand byte, a zero divisor, and for an operand write HALT, then BUSY. -/
def Obligations.ChecksAreMadeInOrder : Prop :=
  (∀ (off : Offset) (n : Size) (v : Word) (s : State), legalRow off n .write = none →
    hostWrite off n v s = .fault (.hostBusError off n .write))
  ∧ (∀ (w : Word32) (s : State), s.halt = true → cmdWrite w s = .next s)
  ∧ (∀ (w : Word32) (s : State), s.halt = false → s.busy = true → cmdWrite w s = .next (withFault 3#4 0x100#32 s))
  ∧ (∀ (w : Word32) (s : State), Ready s → illegalWord w = true → cmdWrite w s = .next (withFault 2#4 w s))
  ∧ (∀ (w : Word32) (i : Instr) (s : State), Ready s → decode w = .ok i → ¬OperandsWritten i s →
      cmdWrite w s = .fault .unwrittenRead)
  ∧ (∀ (w : Word32) (i : Instr) (s : State), Ready s → decode w = .ok i → OperandsWritten i s →
      isDivision i = true → secondValue i s = 0 → cmdWrite w s = .next (withFault 1#4 w s))
  ∧ (∀ (w : Word32) (i : Instr) (s : State), Ready s → decode w = .ok i → OperandsWritten i s →
      (isDivision i = true → secondValue i s ≠ 0) →
      ∃ op rd a b, cmdWrite w s = .next (withPending op rd a b s))
  ∧ (∀ (off : Offset) (n : Size) (v : Word) (s : State), s.halt = true → writeOperands off n v s = s)
  ∧ ∀ (off : Offset) (n : Size) (v : Word) (s : State), s.halt = false → s.busy = true →
      writeOperands off n v s = withFault 3#4 (off.setWidth 32) s

/-- Nothing but reset clears HALT, CAUSE or FAULTINFO once a fault is recorded (60_exceptions R148, 10_state R24). -/
def Obligations.OnlyResetLeavesTheHaltedState : Prop :=
  ∀ s t : State, step s = .next t → s.halt = true →
    (t.halt = true ∧ t.cause = s.cause ∧ t.faultInfo = s.faultInfo)
    ∨ ((takeTurn s).1 = .host ∧ ∃ rest, s.host = .reset :: rest)

/-! ## BUSY, the latch and the flags -/

/-- BUSY is set by the accept step of a legal command and cleared by the unit's completion step and by reset, and by nothing
else; while BUSY = 1 exactly one command is pending (10_state R23). -/
def Obligations.BusyFollowsAcceptAndCompletion : Prop :=
  (∀ (i : Instr) (s t : State), Ready s → exec i s = .next t → t.halt = false → t.busy = true)
  ∧ (∀ (s : State) (p : Pending), s.busy = true → s.pending = some p → (unitStep s).busy = false)
  ∧ (∀ s : State, (assertReset s).busy = false)
  ∧ (∀ s t : State, step s = .next t → s.busy = false → t.busy = true →
    s.halt = false ∧ (∃ p, t.pending = some p)
    ∧ ∃ v rest i, s.host = .write 0x100#9 .b4 v :: rest ∧ decode (v.setWidth 32) = .ok i)
  ∧ (∀ s t : State, step s = .next t → s.busy = true → t.busy = false →
      (takeTurn s).1 = .unit ∨ ∃ rest, s.host = .reset :: rest)
  ∧ ∀ s : State, Inv s → (s.busy = true ↔ ∃ p, s.pending = some p)

/-- A pending command is never cancelled but by reset: every step leaves it pending, completes it, or is the reset step
(30_encoding R71, R72; 60_exceptions R142; 70_reset R170). -/
def Obligations.PendingCommandIsNeverCancelled : Prop :=
  ∀ (s t : State) (p : Pending), step s = .next t → s.busy = true → s.pending = some p →
    (t.busy = true ∧ t.pending = some p)
    ∨ t = { complete p s with turns := t.turns }
    ∨ (∃ rest, s.host = .reset :: rest) ∧ t.pending = none ∧ t.busy = false

/-- The flags of every completed command are those of the table of 10_state R25; only the completion step and reset write
them; no command reads them. -/
def Obligations.FlagsFollowTheTable : Prop :=
  (∀ (p : Pending) (s : State), (p.op.isMixed = true → hi p.b = 0#64) →
    (complete p s).c = flagC p.op p.a p.b ∧ (complete p s).v = flagV p.op p.a p.b)
  ∧ (∀ s t : State, step s = .next t → t.c ≠ s.c ∨ t.v ≠ s.v →
      ((takeTurn s).1 = .unit ∧ s.busy = true) ∨ ∃ rest, s.host = .reset :: rest)
  ∧ (∀ s : State, (assertReset s).c = false ∧ (assertReset s).v = false)
  ∧ (∀ (p : Pending) (s : State) (c v : Bool), complete p { s with c := c, v := v } = complete p s)
  ∧ ∀ (i : Instr) (s t : State) (c v : Bool), exec i s = .next t →
      exec i { s with c := c, v := v } = .next { t with c := c, v := v }

/-- What a completion writes is fixed by the latch alone: two units with the same pending command write the same result and
flags, whatever their registers hold (30_encoding R71, R74). -/
def Obligations.CompletionIsFixedByTheLatch : Prop :=
  ∀ (p : Pending) (s s' : State),
    (complete p s).c = (complete p s').c ∧ (complete p s).v = (complete p s').v
    ∧ (p.op ≠ .bin2dec → (complete p s).reg p.rd = (complete p s').reg p.rd)
    ∧ (p.op = .bin2dec → (complete p s).decBuf = (complete p s').decBuf ∧ (complete p s).decLen = (complete p s').decLen)

/-! ## Frames -/

/-- The frame of every submitted command, all twelve: a next state differs from the state before in BUSY and the latch, or
in HALT, CAUSE and FAULTINFO, and in nothing else; every byte of the window reads as before (30_encoding R70, 60_exceptions
R143). -/
def Obligations.SubmissionFrame : Prop :=
  ∀ (i : Instr) (s t : State), exec i s = .next t →
    t = { s with
          busy := t.busy, pending := t.pending, halt := t.halt, cause := t.cause, faultInfo := t.faultInfo }
    ∧ ∀ off : Nat, windowByte t off = windowByte s off

/-- The frame of the completion of every command with a destination, all but BIN2DEC: every other operand register and its
marks, every byte of the window outside the 16 bytes of `X[rd]`, DECLEN, HALT, CAUSE and FAULTINFO, and the host's side are
unchanged (30_encoding R72). -/
def Obligations.ResultCompletionFrame : Prop :=
  ∀ (p : Pending) (s : State), p.op ≠ .bin2dec →
    (∀ q : Reg, q ≠ p.rd → (complete p s).reg q = s.reg q ∧ (complete p s).marks q = s.marks q)
    ∧ (∀ off : Nat, ¬(0x010 * p.rd.val ≤ off ∧ off < 0x010 * p.rd.val + 16) →
        windowByte (complete p s) off = windowByte s off)
    ∧ FullyWritten p.rd (complete p s)
    ∧ complete p s = { s with
        x := (complete p s).x, xMarks := (complete p s).xMarks
        c := (complete p s).c, v := (complete p s).v, busy := false, pending := none }

/-- The frame of the completion of BIN2DEC: no operand register changes, nor any byte of the window outside DECBUF, nor HALT,
CAUSE and FAULTINFO, nor the host's side (44_decimal R131). -/
def Obligations.DecimalCompletionFrame : Prop :=
  ∀ (p : Pending) (s : State), p.op = .bin2dec →
    (∀ off : Nat, ¬(0x120 ≤ off ∧ off < 0x148) → windowByte (complete p s) off = windowByte s off)
    ∧ complete p s = { s with
        decLen := (complete p s).decLen, decBuf := (complete p s).decBuf, decMarks := BitVec.allOnes 40
        c := false, v := false, busy := false, pending := none }

/-! ## Reset and the invariant -/

/-- The reset values of 10_state R33, at State.reset and after a reset line from any state: BUSY, HALT, C, V and CAUSE 0,
FAULTINFO and DECLEN 0, the latch empty, no byte of X0 to X15 or DECBUF written; STATUS, FAULTINFO and DECLEN read 0 and ID
reads its constant. -/
def Obligations.ResetLeavesTheResetValues : Prop :=
  ∀ s t : State, t = State.reset ∨ performLine .reset s = .next t →
    t.busy = false ∧ t.halt = false ∧ t.c = false ∧ t.v = false ∧ t.cause = 0#4 ∧ t.faultInfo = 0#32
    ∧ t.decLen = 0#32 ∧ t.pending = none
    ∧ (∀ off : Nat, windowByte t off = none)
    ∧ readWindow 0x104#9 .b4 t = .next (0#64, t) ∧ readWindow 0x108#9 .b4 t = .next (0#64, t)
    ∧ readWindow 0x10C#9 .b4 t = .next (0#64, t) ∧ readWindow 0x110#9 .b4 t = .next (0x55313238#64, t)

/-- The invariant holds at reset. -/
def Obligations.InvAtReset : Prop := Inv State.reset

/-- Every step keeps the invariant: BUSY and the latch agree, an accepted divisor is not zero, CAUSE is legal and FAULTINFO
is what it says, C and V are not both set, DECBUF and DECLEN hold the text of one value (10_state R22 to R32). -/
def Obligations.InvKeptByEveryStep : Prop := ∀ s t : State, Inv s → step s = .next t → Inv t

/-- Under the invariant, DECLEN is at most 39 with bits 31:6 zero, and a written DECBUF is DECLEN ASCII digits, the first not
`0` unless it is the only one, then `0x00` to its end (10_state R27, R30). -/
def Obligations.DecbufHoldsDigitsThenZeros : Prop :=
  ∀ s : State, Inv s →
    s.decLen.toNat ≤ 39 ∧ s.decLen.extractLsb' 6 26 = 0#26
    ∧ (s.decMarks = BitVec.allOnes 40 →
        1 ≤ s.decLen.toNat ∧ (s.decBuf[0] ≠ 0x30#8 ∨ s.decLen.toNat = 1)
        ∧ ∀ (i : Nat) (h : i < 40),
            if i < s.decLen.toNat then 0x30 ≤ s.decBuf[i].toNat ∧ s.decBuf[i].toNat ≤ 0x39 else s.decBuf[i] = 0x00#8)

/-- Every command has a meaning and every step an outcome of the spec: no step is refused (30_encoding R64). -/
def Obligations.NoStepIsRefused : Prop := ∀ (s : State) (r : Refusal), step s ≠ .refused r

/-! ## The window -/

/-- Byte `j` of `X[n]` sits at offset `0x010*n + j` and holds bits `[8j+7:8j]`; the low word is in bytes 0 to 7 and the high
word in bytes 8 to 15, each little-endian (20_memory R42). `DECBUF[i]` sits at offset `0x120 + i` (20_memory R43, 10_state
R30). -/
def Obligations.OperandBytesAreLittleEndian : Prop :=
  (∀ (s : State) (n : Reg) (j : Nat), j < 16 → (s.marks n).getLsbD j = true →
    windowByte s (0x010 * n.val + j) = some ((s.reg n).extractLsb' (8 * j) 8))
  ∧ (∀ (s : State) (n : Reg), FullyWritten n s →
      windowBytes s (0x010 * n.val) 8 = some (lo (s.reg n)) ∧ windowBytes s (0x010 * n.val + 8) 8 = some (hi (s.reg n)))
  ∧ (∀ (s : State) (i : Nat) (h : i < 40), s.decMarks.getLsbD i = true → windowByte s (0x120 + i) = some s.decBuf[i])
  ∧ (∀ (s : State) (n : Reg) (j : Nat), j < 16 → (s.marks n).getLsbD j = false →
      windowByte s (0x010 * n.val + j) = none)
  ∧ ∀ (s : State) (i : Nat), i < 40 → s.decMarks.getLsbD i = false → windowByte s (0x120 + i) = none

/-- A legal operand-register write on a unit that is neither halted nor busy, then a read of the same bytes, gives the bytes
written (20_memory R43, R45, R56). -/
def Obligations.OperandWriteReadsBack : Prop :=
  ∀ (s : State) (off : Offset) (n : Size) (v : Word), Ready s → legalRow off n .write = some .operands →
    ∃ t, hostWrite off n v s = .next t ∧ readWindow off n t = .next (truncateTo n v, t)

/-- A legal operand-register write on a unit that is neither halted nor busy writes and marks its `n` bytes, leaves every
other byte of the window as it was, and changes nothing else (20_memory R45; the answer is the port's, R58). -/
def Obligations.OperandWriteFrame : Prop :=
  ∀ (s : State) (off : Offset) (n : Size) (v : Word), Ready s → legalRow off n .write = some .operands →
    ∃ t, hostWrite off n v s = .next t
      ∧ (∀ o : Nat, windowByte t o
          = if off.toNat ≤ o ∧ o < off.toNat + sizeBytes n then some (v.extractLsb' (8 * (o - off.toNat)) 8)
            else windowByte s o)
      ∧ t = { s with x := t.x, xMarks := t.xMarks, answers := .ok :: s.answers }

/-- The two 8-byte writes of `ldx Xn, v` load the whole value, mark all of it, and leave every other register as it was; the
two 8-byte reads of `rdx Xn` after them answer two words whose value `{second, first}` is `v` (20_memory R56, 30_encoding
R69; the record of answers is the model's, log entry 13). -/
def Obligations.TwoWritesLoadARegister : Prop :=
  ∀ (s : State) (n : Reg) (v : U128), Ready s →
    ∃ t u, hostWrite (regOffset n 0) .b8 (lo v) s = .next t ∧ hostWrite (regOffset n 8) .b8 (hi v) t = .next u
      ∧ u.reg n = v ∧ FullyWritten n u ∧ (∀ q : Reg, q ≠ n → u.reg q = s.reg q ∧ u.marks q = s.marks q)
      ∧ ∃ p q, hostRead (regOffset n 0) .b8 u = .next p ∧ hostRead (regOffset n 8) .b8 p = .next q
        ∧ rdxValue q.answers = some v

/-- Which accesses are legal (20_memory R44), and that every other one is a bus error that ends the run and changes nothing
(R46). -/
def Obligations.LegalAccesses : Prop :=
  ∀ (off : Offset) (n : Size),
    (legalRow off n .write ≠ none ↔
      off.toNat % sizeBytes n = 0 ∧ (off.toNat + sizeBytes n ≤ 0x100 ∨ (off.toNat = 0x100 ∧ sizeBytes n = 4)))
    ∧ (legalRow off n .read ≠ none ↔
      off.toNat % sizeBytes n = 0
        ∧ (off.toNat + sizeBytes n ≤ 0x100 ∨ (0x120 ≤ off.toNat ∧ off.toNat + sizeBytes n ≤ 0x148)
            ∨ (sizeBytes n = 4 ∧ (off.toNat = 0x104 ∨ off.toNat = 0x108 ∨ off.toNat = 0x10C ∨ off.toNat = 0x110))))
    ∧ (∀ (v : Word) (s : State), legalRow off n .write = none →
        hostWrite off n v s = .fault (.hostBusError off n .write))
    ∧ ∀ s : State, legalRow off n .read = none → hostRead off n s = .fault (.hostBusError off n .read)

/-- A read has no side effect on the unit or the host's lines; while BUSY = 0 it changes nothing at all, so repeating it
returns the same value (20_memory R48; the count of draws is the model's, log entry 3). While BUSY = 0 a legal read of X0 to
X15 or DECBUF returns its bytes, the byte at `off + k` in bits `[8k+7:8k]`, and is the model fault UnwrittenRead if one of
them has not been written since reset (20_memory R43, R45; 10_state R31). -/
def Obligations.ReadsHaveNoSideEffect : Prop :=
  (∀ (off : Offset) (n : Size) (s s' : State) (v : Word), readWindow off n s = .next (v, s') →
    s' = { s with draws := s'.draws } ∧ (s.busy = false → s' = s))
  ∧ ∀ (off : Offset) (n : Size) (s : State),
      legalRow off n .read = some .operands ∨ legalRow off n .read = some .decBuf → s.busy = false →
      (∀ v : Word, (∀ k, k < sizeBytes n → windowByte s (off.toNat + k) = some (v.extractLsb' (8 * k) 8)) →
        readWindow off n s = .next (truncateTo n v, s))
      ∧ ((∃ k, k < sizeBytes n ∧ windowByte s (off.toNat + k) = none) →
        readWindow off n s = .fault .unwrittenRead ∧ hostRead off n s = .fault .unwrittenRead)

/-- Reads while busy (20_memory R47): the pending destination, and DECBUF and DECLEN for BIN2DEC, return a free value of the
access's width; so do STATUS bits C and V; every other STATUS bit and every other read is exact, its faults included. That a free value is taken
from the count of draws is the model's (log entry 3), and that it is taken even for bytes not yet written is deduced (log
entry 4). -/
def Obligations.ReadsWhileBusyAreFreeDraws : Prop :=
  ∀ (s : State) (p : Pending), s.busy = true → s.pending = some p →
    (∀ (off : Offset) (n : Size), legalRow off n .read = some .operands → p.op ≠ .bin2dec →
      off.toNat / 16 = p.rd.val →
      readWindow off n s = .next (truncateTo n (Config.freeRead s.draws), { s with draws := s.draws + 1 }))
    ∧ (∀ (off : Offset) (n : Size),
        legalRow off n .read = some .decBuf ∨ legalRow off n .read = some .decLen → p.op = .bin2dec →
        readWindow off n s = .next (truncateTo n (Config.freeRead s.draws), { s with draws := s.draws + 1 }))
    ∧ (∃ w : Word32, readWindow 0x104#9 .b4 s = .next (w.setWidth 64, { s with draws := s.draws + 1 })
        ∧ w.getLsbD 0 = true ∧ w.getLsbD 1 = s.halt
        ∧ w.getLsbD 2 = (Config.freeRead s.draws).getLsbD 2 ∧ w.getLsbD 3 = (Config.freeRead s.draws).getLsbD 3
        ∧ w.extractLsb' 4 4 = s.cause ∧ w.extractLsb' 8 24 = 0#24)
    ∧ ∀ (off : Offset) (n : Size) (kind : RowKind), legalRow off n .read = some kind →
        kind ≠ .status → (kind = .operands → p.op = .bin2dec ∨ off.toNat / 16 ≠ p.rd.val) →
        (kind = .decBuf ∨ kind = .decLen → p.op ≠ .bin2dec) →
        (∀ (v : Word) (s' : State), readWindow off n { s with busy := false } = .next (v, s') →
          readWindow off n s = .next (v, s))
        ∧ ∀ r : Fault, readWindow off n { s with busy := false } = .fault r → readWindow off n s = .fault r

/-- STATUS as an idle unit shows it: BUSY, HALT, C, V in bits 0 to 3, CAUSE in bits 7:4, bits 31:8 zero (10_state R22). A read
of FAULTINFO returns it in every state, and a read of DECLEN while BUSY = 0 returns it (R26, R27). A write to one of the three
is a bus error. -/
def Obligations.StatusLayout : Prop :=
  ∀ s : State,
    (s.busy = false → ∃ w : Word32, readWindow 0x104#9 .b4 s = .next (w.setWidth 64, s)
      ∧ w.getLsbD 0 = false ∧ w.getLsbD 1 = s.halt ∧ w.getLsbD 2 = s.c ∧ w.getLsbD 3 = s.v
      ∧ w.extractLsb' 4 4 = s.cause ∧ w.extractLsb' 8 24 = 0#24)
    ∧ readWindow 0x108#9 .b4 s = .next (s.faultInfo.setWidth 64, s)
    ∧ (s.busy = false → readWindow 0x10C#9 .b4 s = .next (s.decLen.setWidth 64, s))
    ∧ ∀ (n : Size) (v : Word), hostWrite 0x104#9 n v s = .fault (.hostBusError 0x104#9 n .write)
      ∧ hostWrite 0x108#9 n v s = .fault (.hostBusError 0x108#9 n .write)
      ∧ hostWrite 0x10C#9 n v s = .fault (.hostBusError 0x10C#9 n .write)

/-- ID reads as the constant `0x55313238` on every legal read, in every state, and after reset; a host write to it is a bus
error (10_state R28). -/
def Obligations.IdReadsItsConstant : Prop :=
  ∀ s : State, readWindow 0x110#9 .b4 s = .next (0x55313238#64, s)
    ∧ readWindow 0x110#9 .b4 (assertReset s) = .next (0x55313238#64, assertReset s)
    ∧ ∀ (n : Size) (v : Word), hostWrite 0x110#9 n v s = .fault (.hostBusError 0x110#9 n .write)

/-- A turn of `wait` always completes: while BUSY = 1 the line stays, and once BUSY = 0 it is done (30_encoding R69, 70_reset
R175). -/
def Obligations.WaitHoldsWhileBusy : Prop :=
  ∀ s : State, ∃ t, hostWait s = .next t ∧ t.host = (if s.busy then .wait :: s.host else s.host)

/-! ## Results and primitives -/

/-- The mixed forms write the same destination and the same flags as the 128-bit operations applied to `from64` of the word
(42_arithmetic R97). -/
def Obligations.MixedFormsAgree : Prop :=
  ∀ (rd : Reg) (a : U128) (d : Word) (s : State),
    completeAdd64 rd a (from64 d) s = completeAdd rd a (from64 d) s
    ∧ completeSub64 rd a (from64 d) s = completeSub rd a (from64 d) s
    ∧ completeMul64 rd a (from64 d) s = completeMul rd a (from64 d) s

/-- V of MUL by words: set exactly when both high words are nonzero, or the exact sum of the middle terms is at least 2^64
(42_arithmetic R93). -/
def Obligations.MulOverflowByWords : Prop :=
  ∀ a b : U128, mulOverflow a b = true ↔
    (hi a ≠ 0#64 ∧ hi b ≠ 0#64)
    ∨ 2 ^ 64 ≤ hi64 ((lo a).toNat * (lo b).toNat) + (lo a).toNat * (hi b).toNat + (hi a).toNat * (lo b).toNat

/-- The laws of the family (42_arithmetic R98): ADD and MUL are commutative and associative, Zero is the identity of ADD,
MUL distributes over ADD, SUB undoes ADD and ADD undoes SUB; C of ADD says the result is less than `a`, C of SUB that
`a < b`. -/
def Obligations.ArithmeticLaws : Prop :=
  ∀ a b c : U128,
    addResult a b = addResult b a ∧ addResult (addResult a b) c = addResult a (addResult b c)
    ∧ addResult a zero128 = a
    ∧ subResult (addResult a b) b = a ∧ addResult (subResult a b) b = a
    ∧ mulResult a b = mulResult b a ∧ mulResult (mulResult a b) c = mulResult a (mulResult b c)
    ∧ mulResult a (addResult b c) = addResult (mulResult a b) (mulResult a c)
    ∧ (addCarry a b = true ↔ (addResult a b).toNat < a.toNat)
    ∧ (subBorrow a b = true ↔ a.toNat < b.toNat)

/-- Quotient and remainder (43_division R111, R112): for a divisor that is not zero the quotient fits in 128 bits,
`q * val(b) + r = val(a)` holds exactly with `r < val(b)`, and the pair is unique. -/
def Obligations.DivisionIdentityIsExactAndUnique : Prop :=
  ∀ a b : U128, 1 ≤ b.toNat →
    (quotient a b).toNat = a.toNat / b.toNat ∧ (remainder a b).toNat = a.toNat % b.toNat
    ∧ (quotient a b).toNat * b.toNat + (remainder a b).toNat = a.toNat ∧ (remainder a b).toNat < b.toNat
    ∧ ∀ q r : Nat, q * b.toNat + r = a.toNat → r < b.toNat → q = (quotient a b).toNat ∧ r = (remainder a b).toNat

/-- The division identity with the unit's own MUL and ADD, which neither overflow nor carry here (43_division R121). -/
def Obligations.UnitCheckOfADivision : Prop :=
  ∀ a b : U128, 1 ≤ b.toNat →
    addResult (mulResult (quotient a b) b) (remainder a b) = a
    ∧ mulOverflow (quotient a b) b = false
    ∧ addCarry (mulResult (quotient a b) b) (remainder a b) = false

/-- The source's reference division, by its path selection, two-step 128-by-64 case and restoring loop, gives the quotient
and the remainder of the contract for every divisor that is not zero (43_division R117, R118, R119). -/
def Obligations.ReferenceDivisionMeetsTheContract : Prop :=
  ∀ a b : U128, 1 ≤ b.toNat → referenceDivide a b = some (quotient a b, remainder a b)

/-- The unskipped 128-iteration loop, the loop that skips initial iterations by the leading-zero count, and the division of
the normalized operands all give the contract's results (43_division R119, R120). -/
def Obligations.PermittedOptimisationsAgree : Prop :=
  ∀ a b : U128, 1 ≤ b.toNat →
    restoringDivide a b = (quotient a b, remainder a b)
    ∧ skippingDivide a b = restoringDivide a b
    ∧ normalizedDivide a b = (quotient a b, remainder a b)

/-- The word-level leading-zero count is `128 − bitlength(val(x))`, from 0 to 128 (41_leading_zeros R80). -/
def Obligations.LeadingZerosIsTheBitLength : Prop :=
  ∀ x : U128, leadingZeros x = 128 - bitLength x.toNat ∧ leadingZeros x ≤ 128 ∧ bitLength x.toNat ≤ 128
    ∧ (x = zero128 → leadingZeros x = 128)

/-- The source's conversion by groups of 19 digits gives the decimal text (44_decimal R132). -/
def Obligations.ReferenceDecimalIsTheText : Prop := ∀ a : U128, referenceDecimal a = dec a.toNat

/-- The text is canonical: decimal digits, no leading zero unless it is `0`, 1 to 39 of them; and DECBUF[0 .. DECLEN−1] after
the completion of BIN2DEC, read as a decimal numeral, gives back `val(a)` (44_decimal R133). -/
def Obligations.DecimalRoundTrip : Prop :=
  (∀ n : Nat, n < 2 ^ 128 →
    numeral (dec n) = n ∧ (∀ d ∈ dec n, d < 10) ∧ (dec n = [0] ∨ ∃ d rest, dec n = d :: rest ∧ d ≠ 0)
    ∧ (dec n).length ≤ 39)
  ∧ ∀ (a : U128) (s : State),
    numeral (((completeBin2dec a s).decBuf.toList.take (completeBin2dec a s).decLen.toNat).map
      fun byte => byte.toNat - 0x30) = a.toNat

/-- The word-level shifts agree with the value-level ones, and every shift by 128 or more gives Zero (00_scope R15);
comparing the high words first and the low words on a tie compares the values (R16). -/
def Obligations.ShiftsAndComparisonByWords : Prop :=
  (∀ (x : U128) (n : Nat), lsh x n = u128 (x.toNat * 2 ^ n) ∧ rsh x n = u128 (x.toNat / 2 ^ n)
    ∧ (128 ≤ n → lsh x n = zero128 ∧ rsh x n = zero128))
  ∧ ∀ x y : U128, Sys2Proof.Machine.cmp x y = compare x.toNat y.toNat

/-- The 64-by-64 and wide divisions answer exactly under their preconditions, with both results in 64 bits (00_scope R14);
outside them they have no answer, which is the model's choice (log entry 18). -/
def Obligations.WordDivisionsAreExact : Prop :=
  (∀ n d : Word, d ≠ 0#64 → ∃ q r, div64x64 n d = some (q, r) ∧ q.toNat = n.toNat / d.toNat ∧ r.toNat = n.toNat % d.toNat)
  ∧ (∀ h l d : Word, d ≠ 0#64 → h.toNat < d.toNat → ∃ q r, divideWide h l d = some (q, r)
      ∧ q.toNat = (h.toNat * 2 ^ 64 + l.toNat) / d.toNat ∧ r.toNat = (h.toNat * 2 ^ 64 + l.toNat) % d.toNat)
  ∧ (∀ n : Word, div64x64 n 0#64 = none) ∧ ∀ h l d : Word, d.toNat ≤ h.toNat → divideWide h l d = none
end

