-- ==== Sys2Proof/Laws/Words.lean ====
section
/-!
SUPPORT. The words of a value as numbers: `val(r) = r.hi * 2^64 + r.lo` and what follows from it (00_scope R11).
-/

namespace Sys2Proof.Machine

theorem lo_toNat (r : U128) : (lo r).toNat = r.toNat % 2 ^ 64 := by
  simp [lo, BitVec.extractLsb'_toNat]

theorem hi_toNat (r : U128) : (hi r).toNat = r.toNat / 2 ^ 64 := by
  have := r.isLt
  simp only [hi, BitVec.extractLsb'_toNat, Nat.shiftRight_eq_div_pow]
  omega

theorem val_eq (r : U128) : r.toNat = (hi r).toNat * 2 ^ 64 + (lo r).toNat := by
  rw [hi_toNat, lo_toNat]
  omega

theorem join_toNat (h l : Word) : (join h l).toNat = h.toNat * 2 ^ 64 + l.toNat := by
  have := l.isLt
  rw [join, BitVec.toNat_append, ← Nat.shiftLeft_add_eq_or_of_lt this, Nat.shiftLeft_eq]

@[simp] theorem lo_join (h l : Word) : lo (join h l) = l := by
  apply BitVec.eq_of_toNat_eq
  have := l.isLt
  rw [lo_toNat, join_toNat]
  omega

@[simp] theorem hi_join (h l : Word) : hi (join h l) = h := by
  apply BitVec.eq_of_toNat_eq
  have := l.isLt
  rw [hi_toNat, join_toNat]
  omega

@[simp] theorem join_hi_lo (r : U128) : join (hi r) (lo r) = r :=
  BitVec.eq_of_toNat_eq (by rw [join_toNat, ← val_eq])

theorem from64_toNat (v : Word) : (from64 v).toNat = v.toNat := by
  have := v.isLt
  simp only [from64, BitVec.toNat_setWidth]
  omega

@[simp] theorem lo_from64 (v : Word) : lo (from64 v) = v := by
  apply BitVec.eq_of_toNat_eq
  have := v.isLt
  rw [lo_toNat, from64_toNat]
  omega

@[simp] theorem hi_from64 (v : Word) : hi (from64 v) = 0#64 := by
  apply BitVec.eq_of_toNat_eq
  have := v.isLt
  rw [hi_toNat, from64_toNat]
  simp only [BitVec.toNat_ofNat]
  omega

theorem u128_toNat (n : Nat) : (u128 n).toNat = n % 2 ^ 128 := by
  simp [u128]

theorem from64_lo_of_hi_zero {b : U128} (h : hi b = 0#64) : from64 (lo b) = b := by
  apply BitVec.eq_of_toNat_eq
  rw [from64_toNat, val_eq b, h]
  simp

theorem leadingZerosBelow_le (w : Word) (k : Nat) : leadingZerosBelow w k ≤ k := by
  induction k with
  | zero => simp [leadingZerosBelow]
  | succ k ih =>
    rw [leadingZerosBelow]
    split <;> omega

theorem leadingZeros_le (x : U128) : leadingZeros x ≤ 128 := by
  have h1 := leadingZerosBelow_le (hi x) 64
  have h2 := leadingZerosBelow_le (lo x) 64
  rw [leadingZeros]
  unfold lzc64
  split
  · omega
  · split <;> omega

end Sys2Proof.Machine
end

