-- ==== Sys2Proof/Laws/Arithmetic.lean ====
section
/-!
SUPPORT. What each word-level computation of the arithmetic family gives as a number (42_arithmetic R91 to R97): the result
of ADD, SUB and MUL modulo 2^128, the carry and the borrow.
-/

namespace Sys2Proof.Machine

theorem ofNat64_toNat (n : Nat) : (BitVec.ofNat 64 n).toNat = n % 2 ^ 64 := by
  simp

theorem addResult_toNat (a b : U128) : (addResult a b).toNat = (a.toNat + b.toNat) % 2 ^ 128 := by
  have := (lo a).isLt
  have := (lo b).isLt
  have := (hi a).isLt
  have := (hi b).isLt
  rw [val_eq a, val_eq b, addResult, join_toNat, ofNat64_toNat, ofNat64_toNat, lowCarry]
  omega

theorem addCarry_iff (a b : U128) : addCarry a b = decide (2 ^ 128 ≤ a.toNat + b.toNat) := by
  have := (lo a).isLt
  have := (lo b).isLt
  have := (hi a).isLt
  have := (hi b).isLt
  rw [val_eq a, val_eq b, addCarry, lowCarry, Bool.eq_iff_iff]
  simp only [beq_iff_eq, decide_eq_true_eq]
  omega

theorem subBorrow_iff (a b : U128) : subBorrow a b = decide (a.toNat < b.toNat) := by
  have := (lo a).isLt
  have := (lo b).isLt
  rw [val_eq a, val_eq b, subBorrow, lowBorrow, Bool.eq_iff_iff]
  simp only [decide_eq_true_eq]
  split <;> omega

theorem subResult_toNat (a b : U128) : (subResult a b).toNat = (a.toNat + 2 ^ 128 - b.toNat) % 2 ^ 128 := by
  have := (lo a).isLt
  have := (lo b).isLt
  have := (hi a).isLt
  have := (hi b).isLt
  rw [val_eq a, val_eq b, subResult, join_toNat, BitVec.toNat_sub, BitVec.toNat_sub, BitVec.toNat_sub,
    ofNat64_toNat, lowBorrow]
  split <;> omega

theorem mulResult_toNat (a b : U128) : (mulResult a b).toNat = a.toNat * b.toNat % 2 ^ 128 := by
  rw [val_eq a, val_eq b, mulResult, join_toNat, ofNat64_toNat, ofNat64_toNat]
  have ha := (lo a).isLt
  have hb := (lo b).isLt
  have expand : ((hi a).toNat * 2 ^ 64 + (lo a).toNat) * ((hi b).toNat * 2 ^ 64 + (lo b).toNat)
      = 2 ^ 128 * ((hi a).toNat * (hi b).toNat) + 2 ^ 64 * ((lo a).toNat * (hi b).toNat + (hi a).toNat * (lo b).toNat)
        + (lo a).toNat * (lo b).toNat := by ring
  have hp : (lo a).toNat * (lo b).toNat < 2 ^ 128 := by nlinarith
  rw [expand]
  simp only [hi64, lo64]
  generalize (lo a).toNat * (hi b).toNat = x at *
  generalize (hi a).toNat * (lo b).toNat = y at *
  generalize (lo a).toNat * (lo b).toNat = p at *
  generalize (hi a).toNat * (hi b).toNat = z at *
  omega

end Sys2Proof.Machine
end

