-- ==== Sys2Proof/Laws/Encoding.lean ====
section
/-!
SUPPORT. The fields of a packed word (30_encoding R60): each is read back as it was put in, and a word with its reserved
bits 0 is the packed word of its own fields.
-/

namespace Sys2Proof

/-- A register number as its 4-bit field. -/
def fieldOf (r : Reg) : BitVec 4 := BitVec.ofNat 4 r.val

theorem ofNat32_reg (r : Reg) : BitVec.ofNat 32 r.val = (fieldOf r).setWidth 32 := by
  apply BitVec.eq_of_toNat_eq
  simp only [fieldOf, BitVec.toNat_ofNat, BitVec.toNat_setWidth]
  omega

@[simp] theorem fieldOf_toFin (r : Reg) : (fieldOf r).toFin = r := by
  apply Fin.ext
  simp [fieldOf]

@[simp] theorem fieldOf_regField (w : Word32) (i : Nat) : fieldOf (regField w i) = w.extractLsb' i 4 := by
  apply BitVec.eq_of_toNat_eq
  simp [fieldOf, regField]

theorem fieldOf_eq_zero (r : Reg) : fieldOf r = 0#4 ↔ r = 0 := by
  constructor
  · intro h
    rw [← fieldOf_toFin r, h]
    rfl
  · rintro rfl
    rfl

@[simp] theorem fieldOf_zero : fieldOf 0 = 0#4 := rfl

/-- Bit `i` of a packed word is the bit of the field it lies in. -/
theorem packFields_getLsbD (op : Byte) (rd rs1 rs2 : Reg) (i : Nat) :
    (packFields op rd rs1 rs2).getLsbD i =
      if i < 8 then op.getLsbD i
      else if i < 12 then (fieldOf rd).getLsbD (i - 8)
      else if i < 16 then (fieldOf rs1).getLsbD (i - 12)
      else if i < 20 then (fieldOf rs2).getLsbD (i - 16)
      else false := by
  unfold packFields
  rw [ofNat32_reg, ofNat32_reg, ofNat32_reg]
  generalize fieldOf rd = d
  generalize fieldOf rs1 = a
  generalize fieldOf rs2 = b
  have ho : ∀ j, 8 ≤ j → op.getLsbD j = false := fun j => BitVec.getLsbD_of_ge _ _
  have hf : ∀ (r : BitVec 4) j, 4 ≤ j → r.getLsbD j = false := fun r j => BitVec.getLsbD_of_ge _ _
  simp only [BitVec.getLsbD_or, BitVec.getLsbD_setWidth, BitVec.getLsbD_shiftLeft]
  by_cases h1 : i < 8
  · simp [h1, show i < 12 by omega, show i < 16 by omega, show i < 32 by omega]
  rw [ho i (by omega)]
  by_cases h2 : i < 12
  · simp [h1, h2, show i < 16 by omega, show i < 32 by omega, show i - 8 < 32 by omega]
  rw [hf d (i - 8) (by omega)]
  by_cases h3 : i < 16
  · simp [h1, h2, h3, show i < 32 by omega, show i - 12 < 32 by omega]
  rw [hf a (i - 12) (by omega)]
  by_cases h4 : i < 20
  · simp [h1, h2, h3, h4, show i < 32 by omega, show i - 16 < 32 by omega]
  rw [hf b (i - 16) (by omega)]
  simp [h1, h2, h3, h4]

@[simp] theorem packFields_op (op : Byte) (rd rs1 rs2 : Reg) : (packFields op rd rs1 rs2).extractLsb' 0 8 = op := by
  apply BitVec.eq_of_getLsbD_eq
  intro i h
  simp [packFields_getLsbD, h]

@[simp] theorem packFields_rd (op : Byte) (rd rs1 rs2 : Reg) :
    (packFields op rd rs1 rs2).extractLsb' 8 4 = fieldOf rd := by
  apply BitVec.eq_of_getLsbD_eq
  intro i h
  simp [packFields_getLsbD, h, show 8 + i < 12 by omega]

@[simp] theorem packFields_rs1 (op : Byte) (rd rs1 rs2 : Reg) :
    (packFields op rd rs1 rs2).extractLsb' 12 4 = fieldOf rs1 := by
  apply BitVec.eq_of_getLsbD_eq
  intro i h
  simp [packFields_getLsbD, h, show 12 + i < 16 by omega,
    show ¬12 + i < 8 by omega]

@[simp] theorem packFields_rs2 (op : Byte) (rd rs1 rs2 : Reg) :
    (packFields op rd rs1 rs2).extractLsb' 16 4 = fieldOf rs2 := by
  apply BitVec.eq_of_getLsbD_eq
  intro i h
  simp [packFields_getLsbD, h, show 16 + i < 20 by omega,
    show ¬16 + i < 8 by omega, show ¬16 + i < 12 by omega]

@[simp] theorem packFields_resv (op : Byte) (rd rs1 rs2 : Reg) :
    (packFields op rd rs1 rs2).extractLsb' 20 12 = 0#12 := by
  apply BitVec.eq_of_getLsbD_eq
  intro i h
  simp only [BitVec.getLsbD_extractLsb', packFields_getLsbD, BitVec.getLsbD_zero]
  simp [show ¬20 + i < 8 by omega, show ¬20 + i < 12 by omega, show ¬20 + i < 16 by omega]

@[simp] theorem regField_packFields_8 (op : Byte) (rd rs1 rs2 : Reg) : regField (packFields op rd rs1 rs2) 8 = rd := by
  simp [regField]

@[simp] theorem regField_packFields_12 (op : Byte) (rd rs1 rs2 : Reg) : regField (packFields op rd rs1 rs2) 12 = rs1 := by
  simp [regField]

@[simp] theorem regField_packFields_16 (op : Byte) (rd rs1 rs2 : Reg) : regField (packFields op rd rs1 rs2) 16 = rs2 := by
  simp [regField]

/-- A word whose reserved bits are 0 is the packed word of its own fields. -/
theorem packFields_of_fields (w : Word32) (h : w.extractLsb' 20 12 = 0#12) :
    packFields (w.extractLsb' 0 8) (regField w 8) (regField w 12) (regField w 16) = w := by
  apply BitVec.eq_of_getLsbD_eq
  intro i hi
  rw [packFields_getLsbD]
  simp only [fieldOf_regField, BitVec.getLsbD_extractLsb']
  by_cases h1 : i < 8
  · simp [h1]
  by_cases h2 : i < 12
  · simp [h1, h2, show i - 8 < 4 by omega, show 8 + (i - 8) = i by omega]
  by_cases h3 : i < 16
  · simp [h1, h2, h3, show i - 12 < 4 by omega, show 12 + (i - 12) = i by omega]
  by_cases h4 : i < 20
  · simp [h1, h2, h3, h4, show i - 16 < 4 by omega, show 16 + (i - 16) = i by omega]
  have hbit : (w.extractLsb' 20 12).getLsbD (i - 20) = false := by rw [h]; simp
  rw [BitVec.getLsbD_extractLsb'] at hbit
  simp only [show i - 20 < 12 by omega, show 20 + (i - 20) = i by omega, decide_true, Bool.true_and] at hbit
  simp [h1, h2, h3, h4, hbit]

/-- The bytes of a word, read back as a word. -/
@[simp] theorem wordOfBytes_bytesOfWord (w : Word32) :
    wordOfBytes (w.extractLsb' 0 8) (w.extractLsb' 8 8) (w.extractLsb' 16 8) (w.extractLsb' 24 8) = w := by
  apply BitVec.eq_of_getLsbD_eq
  intro i hi
  unfold wordOfBytes
  simp only [BitVec.getLsbD_append, BitVec.getLsbD_extractLsb']
  by_cases h1 : i < 8
  · simp [h1]
  by_cases h2 : i < 16
  · simp [h1, show i - 8 < 8 by omega, show 8 + (i - 8) = i by omega]
  by_cases h3 : i < 24
  · simp [h1, show ¬i - 8 < 8 by omega, show i - 8 - 8 < 8 by omega, show 16 + (i - 8 - 8) = i by omega]
  simp [h1, show ¬i - 8 < 8 by omega, show ¬i - 8 - 8 < 8 by omega, show i - 8 - 8 - 8 < 8 by omega,
    show 24 + (i - 8 - 8 - 8) = i by omega]

/-- An `if` that has a property has it in the branch taken: the way down a decoder's chain of tests. -/
theorem ite_cases {p : Prop} [Decidable p] {α : Type} {a b : α} {P : α → Prop} (h : P (if p then a else b)) :
    (p ∧ P a) ∨ (¬p ∧ P b) := by
  by_cases hp : p
  · exact .inl ⟨hp, by rwa [if_pos hp] at h⟩
  · exact .inr ⟨hp, by rwa [if_neg hp] at h⟩

end Sys2Proof
end

