-- ==== Sys2Proof/Laws/State.lean ====
section
/-!
SUPPORT. One lemma per field per update of the state, each true by definition: no later proof unfolds a record update.
-/

namespace Sys2Proof.Machine

/-! `State.setReg` -/

@[simp] theorem setReg_x (s : State) (r : Reg) (w : U128) : (s.setReg r w).x = s.x.set r.val w := rfl
@[simp] theorem setReg_xMarks (s : State) (r : Reg) (w : U128) : (s.setReg r w).xMarks = s.xMarks.set r.val (BitVec.allOnes 16) := rfl
@[simp] theorem setReg_busy (s : State) (r : Reg) (w : U128) : (s.setReg r w).busy = s.busy := rfl
@[simp] theorem setReg_halt (s : State) (r : Reg) (w : U128) : (s.setReg r w).halt = s.halt := rfl
@[simp] theorem setReg_c (s : State) (r : Reg) (w : U128) : (s.setReg r w).c = s.c := rfl
@[simp] theorem setReg_v (s : State) (r : Reg) (w : U128) : (s.setReg r w).v = s.v := rfl
@[simp] theorem setReg_cause (s : State) (r : Reg) (w : U128) : (s.setReg r w).cause = s.cause := rfl
@[simp] theorem setReg_faultInfo (s : State) (r : Reg) (w : U128) : (s.setReg r w).faultInfo = s.faultInfo := rfl
@[simp] theorem setReg_decLen (s : State) (r : Reg) (w : U128) : (s.setReg r w).decLen = s.decLen := rfl
@[simp] theorem setReg_decBuf (s : State) (r : Reg) (w : U128) : (s.setReg r w).decBuf = s.decBuf := rfl
@[simp] theorem setReg_decMarks (s : State) (r : Reg) (w : U128) : (s.setReg r w).decMarks = s.decMarks := rfl
@[simp] theorem setReg_pending (s : State) (r : Reg) (w : U128) : (s.setReg r w).pending = s.pending := rfl
@[simp] theorem setReg_host (s : State) (r : Reg) (w : U128) : (s.setReg r w).host = s.host := rfl
@[simp] theorem setReg_turns (s : State) (r : Reg) (w : U128) : (s.setReg r w).turns = s.turns := rfl
@[simp] theorem setReg_answers (s : State) (r : Reg) (w : U128) : (s.setReg r w).answers = s.answers := rfl
@[simp] theorem setReg_draws (s : State) (r : Reg) (w : U128) : (s.setReg r w).draws = s.draws := rfl

/-! `accept` -/

@[simp] theorem accept_x (s : State) (op : Op) (rd : Reg) (a b : U128) : (accept op rd a b s).x = s.x := rfl
@[simp] theorem accept_xMarks (s : State) (op : Op) (rd : Reg) (a b : U128) : (accept op rd a b s).xMarks = s.xMarks := rfl
@[simp] theorem accept_busy (s : State) (op : Op) (rd : Reg) (a b : U128) : (accept op rd a b s).busy = true := rfl
@[simp] theorem accept_halt (s : State) (op : Op) (rd : Reg) (a b : U128) : (accept op rd a b s).halt = s.halt := rfl
@[simp] theorem accept_c (s : State) (op : Op) (rd : Reg) (a b : U128) : (accept op rd a b s).c = s.c := rfl
@[simp] theorem accept_v (s : State) (op : Op) (rd : Reg) (a b : U128) : (accept op rd a b s).v = s.v := rfl
@[simp] theorem accept_cause (s : State) (op : Op) (rd : Reg) (a b : U128) : (accept op rd a b s).cause = s.cause := rfl
@[simp] theorem accept_faultInfo (s : State) (op : Op) (rd : Reg) (a b : U128) : (accept op rd a b s).faultInfo = s.faultInfo := rfl
@[simp] theorem accept_decLen (s : State) (op : Op) (rd : Reg) (a b : U128) : (accept op rd a b s).decLen = s.decLen := rfl
@[simp] theorem accept_decBuf (s : State) (op : Op) (rd : Reg) (a b : U128) : (accept op rd a b s).decBuf = s.decBuf := rfl
@[simp] theorem accept_decMarks (s : State) (op : Op) (rd : Reg) (a b : U128) : (accept op rd a b s).decMarks = s.decMarks := rfl
@[simp] theorem accept_pending (s : State) (op : Op) (rd : Reg) (a b : U128) : (accept op rd a b s).pending = some ⟨op, rd, a, b⟩ := rfl
@[simp] theorem accept_host (s : State) (op : Op) (rd : Reg) (a b : U128) : (accept op rd a b s).host = s.host := rfl
@[simp] theorem accept_turns (s : State) (op : Op) (rd : Reg) (a b : U128) : (accept op rd a b s).turns = s.turns := rfl
@[simp] theorem accept_answers (s : State) (op : Op) (rd : Reg) (a b : U128) : (accept op rd a b s).answers = s.answers := rfl
@[simp] theorem accept_draws (s : State) (op : Op) (rd : Reg) (a b : U128) : (accept op rd a b s).draws = s.draws := rfl

/-! `finish` -/

@[simp] theorem finish_x (s : State) (p q : Bool) : (finish p q s).x = s.x := rfl
@[simp] theorem finish_xMarks (s : State) (p q : Bool) : (finish p q s).xMarks = s.xMarks := rfl
@[simp] theorem finish_busy (s : State) (p q : Bool) : (finish p q s).busy = false := rfl
@[simp] theorem finish_halt (s : State) (p q : Bool) : (finish p q s).halt = s.halt := rfl
@[simp] theorem finish_c (s : State) (p q : Bool) : (finish p q s).c = p := rfl
@[simp] theorem finish_v (s : State) (p q : Bool) : (finish p q s).v = q := rfl
@[simp] theorem finish_cause (s : State) (p q : Bool) : (finish p q s).cause = s.cause := rfl
@[simp] theorem finish_faultInfo (s : State) (p q : Bool) : (finish p q s).faultInfo = s.faultInfo := rfl
@[simp] theorem finish_decLen (s : State) (p q : Bool) : (finish p q s).decLen = s.decLen := rfl
@[simp] theorem finish_decBuf (s : State) (p q : Bool) : (finish p q s).decBuf = s.decBuf := rfl
@[simp] theorem finish_decMarks (s : State) (p q : Bool) : (finish p q s).decMarks = s.decMarks := rfl
@[simp] theorem finish_pending (s : State) (p q : Bool) : (finish p q s).pending = none := rfl
@[simp] theorem finish_host (s : State) (p q : Bool) : (finish p q s).host = s.host := rfl
@[simp] theorem finish_turns (s : State) (p q : Bool) : (finish p q s).turns = s.turns := rfl
@[simp] theorem finish_answers (s : State) (p q : Bool) : (finish p q s).answers = s.answers := rfl
@[simp] theorem finish_draws (s : State) (p q : Bool) : (finish p q s).draws = s.draws := rfl

/-! `State.answer` -/

@[simp] theorem answer_x (s : State) (a : Answer) : (s.answer a).x = s.x := rfl
@[simp] theorem answer_xMarks (s : State) (a : Answer) : (s.answer a).xMarks = s.xMarks := rfl
@[simp] theorem answer_busy (s : State) (a : Answer) : (s.answer a).busy = s.busy := rfl
@[simp] theorem answer_halt (s : State) (a : Answer) : (s.answer a).halt = s.halt := rfl
@[simp] theorem answer_c (s : State) (a : Answer) : (s.answer a).c = s.c := rfl
@[simp] theorem answer_v (s : State) (a : Answer) : (s.answer a).v = s.v := rfl
@[simp] theorem answer_cause (s : State) (a : Answer) : (s.answer a).cause = s.cause := rfl
@[simp] theorem answer_faultInfo (s : State) (a : Answer) : (s.answer a).faultInfo = s.faultInfo := rfl
@[simp] theorem answer_decLen (s : State) (a : Answer) : (s.answer a).decLen = s.decLen := rfl
@[simp] theorem answer_decBuf (s : State) (a : Answer) : (s.answer a).decBuf = s.decBuf := rfl
@[simp] theorem answer_decMarks (s : State) (a : Answer) : (s.answer a).decMarks = s.decMarks := rfl
@[simp] theorem answer_pending (s : State) (a : Answer) : (s.answer a).pending = s.pending := rfl
@[simp] theorem answer_host (s : State) (a : Answer) : (s.answer a).host = s.host := rfl
@[simp] theorem answer_turns (s : State) (a : Answer) : (s.answer a).turns = s.turns := rfl
@[simp] theorem answer_answers (s : State) (a : Answer) : (s.answer a).answers = a :: s.answers := rfl
@[simp] theorem answer_draws (s : State) (a : Answer) : (s.answer a).draws = s.draws := rfl

/-! `State.drawn` -/

@[simp] theorem drawn_x (s : State) : s.drawn.x = s.x := rfl
@[simp] theorem drawn_xMarks (s : State) : s.drawn.xMarks = s.xMarks := rfl
@[simp] theorem drawn_busy (s : State) : s.drawn.busy = s.busy := rfl
@[simp] theorem drawn_halt (s : State) : s.drawn.halt = s.halt := rfl
@[simp] theorem drawn_c (s : State) : s.drawn.c = s.c := rfl
@[simp] theorem drawn_v (s : State) : s.drawn.v = s.v := rfl
@[simp] theorem drawn_cause (s : State) : s.drawn.cause = s.cause := rfl
@[simp] theorem drawn_faultInfo (s : State) : s.drawn.faultInfo = s.faultInfo := rfl
@[simp] theorem drawn_decLen (s : State) : s.drawn.decLen = s.decLen := rfl
@[simp] theorem drawn_decBuf (s : State) : s.drawn.decBuf = s.decBuf := rfl
@[simp] theorem drawn_decMarks (s : State) : s.drawn.decMarks = s.decMarks := rfl
@[simp] theorem drawn_pending (s : State) : s.drawn.pending = s.pending := rfl
@[simp] theorem drawn_host (s : State) : s.drawn.host = s.host := rfl
@[simp] theorem drawn_turns (s : State) : s.drawn.turns = s.turns := rfl
@[simp] theorem drawn_answers (s : State) : s.drawn.answers = s.answers := rfl
@[simp] theorem drawn_draws (s : State) : s.drawn.draws = s.draws + 1 := rfl

/-! `State.markReg` -/

@[simp] theorem markReg_x (s : State) (r : Reg) : (s.markReg r).x = s.x := rfl
@[simp] theorem markReg_xMarks (s : State) (r : Reg) : (s.markReg r).xMarks = s.xMarks.set r.val (BitVec.allOnes 16) := rfl
@[simp] theorem markReg_busy (s : State) (r : Reg) : (s.markReg r).busy = s.busy := rfl
@[simp] theorem markReg_halt (s : State) (r : Reg) : (s.markReg r).halt = s.halt := rfl
@[simp] theorem markReg_c (s : State) (r : Reg) : (s.markReg r).c = s.c := rfl
@[simp] theorem markReg_v (s : State) (r : Reg) : (s.markReg r).v = s.v := rfl
@[simp] theorem markReg_cause (s : State) (r : Reg) : (s.markReg r).cause = s.cause := rfl
@[simp] theorem markReg_faultInfo (s : State) (r : Reg) : (s.markReg r).faultInfo = s.faultInfo := rfl
@[simp] theorem markReg_decLen (s : State) (r : Reg) : (s.markReg r).decLen = s.decLen := rfl
@[simp] theorem markReg_decBuf (s : State) (r : Reg) : (s.markReg r).decBuf = s.decBuf := rfl
@[simp] theorem markReg_decMarks (s : State) (r : Reg) : (s.markReg r).decMarks = s.decMarks := rfl
@[simp] theorem markReg_pending (s : State) (r : Reg) : (s.markReg r).pending = s.pending := rfl
@[simp] theorem markReg_host (s : State) (r : Reg) : (s.markReg r).host = s.host := rfl
@[simp] theorem markReg_turns (s : State) (r : Reg) : (s.markReg r).turns = s.turns := rfl
@[simp] theorem markReg_answers (s : State) (r : Reg) : (s.markReg r).answers = s.answers := rfl
@[simp] theorem markReg_draws (s : State) (r : Reg) : (s.markReg r).draws = s.draws := rfl

/-! `assertReset` -/

@[simp] theorem assertReset_x (s : State) : (assertReset s).x = State.reset.x := rfl
@[simp] theorem assertReset_xMarks (s : State) : (assertReset s).xMarks = State.reset.xMarks := rfl
@[simp] theorem assertReset_busy (s : State) : (assertReset s).busy = State.reset.busy := rfl
@[simp] theorem assertReset_halt (s : State) : (assertReset s).halt = State.reset.halt := rfl
@[simp] theorem assertReset_c (s : State) : (assertReset s).c = State.reset.c := rfl
@[simp] theorem assertReset_v (s : State) : (assertReset s).v = State.reset.v := rfl
@[simp] theorem assertReset_cause (s : State) : (assertReset s).cause = State.reset.cause := rfl
@[simp] theorem assertReset_faultInfo (s : State) : (assertReset s).faultInfo = State.reset.faultInfo := rfl
@[simp] theorem assertReset_decLen (s : State) : (assertReset s).decLen = State.reset.decLen := rfl
@[simp] theorem assertReset_decBuf (s : State) : (assertReset s).decBuf = State.reset.decBuf := rfl
@[simp] theorem assertReset_decMarks (s : State) : (assertReset s).decMarks = State.reset.decMarks := rfl
@[simp] theorem assertReset_pending (s : State) : (assertReset s).pending = State.reset.pending := rfl
@[simp] theorem assertReset_host (s : State) : (assertReset s).host = s.host := rfl
@[simp] theorem assertReset_turns (s : State) : (assertReset s).turns = s.turns := rfl
@[simp] theorem assertReset_answers (s : State) : (assertReset s).answers = s.answers := rfl
@[simp] theorem assertReset_draws (s : State) : (assertReset s).draws = s.draws := rfl

end Sys2Proof.Machine
end

