-- ==== Sys2Proof/Laws/Ops.lean ====
section
/-!
SUPPORT. What each shared operation can do, said once: registers read back, a recorded fault, the accept step of each
operand form, and the result every completion with a destination writes.
-/

namespace Sys2Proof.Machine

@[simp] theorem reg_setReg_same (s : State) (r : Reg) (w : U128) : (s.setReg r w).reg r = w := by
  simp [State.reg]

theorem reg_setReg_other (s : State) {r q : Reg} (w : U128) (h : q ≠ r) : (s.setReg r w).reg q = s.reg q := by
  have : r.val ≠ q.val := fun e => h (Fin.ext e.symm)
  simp [State.reg, this]

@[simp] theorem marks_setReg_same (s : State) (r : Reg) (w : U128) :
    (s.setReg r w).marks r = BitVec.allOnes 16 := by
  simp [State.marks]

theorem marks_setReg_other (s : State) {r q : Reg} (w : U128) (h : q ≠ r) : (s.setReg r w).marks q = s.marks q := by
  have : r.val ≠ q.val := fun e => h (Fin.ext e.symm)
  simp [State.marks, this]

/-- A halted unit records nothing more (60_exceptions R144, R149). -/
theorem recordFault_halted (cause : Cause) (info : Word32) {s : State} (h : s.halt = true) :
    recordFault cause info s = s := by
  simp [recordFault, h]

/-- A unit that is not halted records three fields and nothing else (60_exceptions R143). -/
theorem recordFault_running (cause : Cause) (info : Word32) {s : State} (h : s.halt = false) :
    recordFault cause info s = withFault (causeCode cause) info s := by
  simp [recordFault, withFault, h]

theorem accept_eq (op : Op) (rd : Reg) (a b : U128) (s : State) : accept op rd a b s = withPending op rd a b s := rfl

theorem writeResult_eq (rd : Reg) (w : U128) (c v : Bool) (s : State) :
    writeResult rd w c v s = withResult rd w c v s := rfl

theorem whenReady_halted {s : State} (h : s.halt = true) (k : Host.Outcome State Fault Refusal) :
    whenReady s k = .next s := by
  simp [whenReady, h]

theorem whenReady_busy {s : State} (h : s.halt = false) (hb : s.busy = true) (k : Host.Outcome State Fault Refusal) :
    whenReady s k = .next (withFault 3#4 0x100#32 s) := by
  simp [whenReady, h, hb, recordFault_running _ _ h, causeCode]

theorem whenReady_ready {s : State} (h : Ready s) (k : Host.Outcome State Fault Refusal) : whenReady s k = k := by
  simp [whenReady, h.1, h.2]

theorem allOnes_iff {w : Nat} (m : BitVec w) : m = BitVec.allOnes w ↔ ∀ j, j < w → m.getLsbD j = true := by
  constructor
  · rintro rfl j hj
    simp [hj]
  · intro h
    apply BitVec.eq_of_getLsbD_eq
    intro j hj
    simp [h j hj, hj]

theorem fullyWritten_iff (r : Reg) (s : State) : FullyWritten r s ↔ s.marks r = BitVec.allOnes 16 :=
  (allOnes_iff _).symm

theorem lowWritten_iff (r : Reg) (s : State) :
    LowWritten r s ↔ (s.marks r).extractLsb' 0 8 = BitVec.allOnes 8 := by
  rw [allOnes_iff]
  constructor
  · intro h j hj
    simp [hj, h j hj]
  · intro h j hj
    have := h j hj
    simpa [hj] using this

theorem fullOperand_written {r : Reg} {s : State} (h : FullyWritten r s) : fullOperand r s = some (s.reg r) := by
  simp [fullOperand, (fullyWritten_iff r s).1 h]

theorem fullOperand_unwritten {r : Reg} {s : State} (h : ¬FullyWritten r s) : fullOperand r s = none := by
  rw [fullyWritten_iff] at h
  rw [fullOperand, if_neg h]

theorem mixedOperand_written {r : Reg} {s : State} (h : LowWritten r s) :
    mixedOperand r s = some (from64 (lo (s.reg r))) := by
  simp [mixedOperand, (lowWritten_iff r s).1 h]

theorem mixedOperand_unwritten {r : Reg} {s : State} (h : ¬LowWritten r s) : mixedOperand r s = none := by
  rw [lowWritten_iff] at h
  rw [mixedOperand, if_neg h]

/-- All that a whole-word submission can answer with a next state: ignored, WriteWhileBusy, or accepted. -/
theorem submit_next {op : Op} {rd : Reg} {a b : Option U128} {s t : State}
    (h : whenReady s (acceptWith op rd a b s) = .next t) :
    (s.halt = true ∧ t = s) ∨ (s.halt = false ∧ s.busy = true ∧ t = withFault 3#4 0x100#32 s)
      ∨ (Ready s ∧ ∃ a' b', a = some a' ∧ b = some b' ∧ t = withPending op rd a' b' s) := by
  cases hh : s.halt with
  | true =>
    rw [whenReady_halted hh] at h
    injection h with h
    exact .inl ⟨rfl, h.symm⟩
  | false =>
    cases hb : s.busy with
    | true =>
      rw [whenReady_busy hh hb] at h
      injection h with h
      exact .inr (.inl ⟨rfl, rfl, h.symm⟩)
    | false =>
      rw [whenReady_ready ⟨hh, hb⟩] at h
      unfold acceptWith at h
      split at h
      · injection h with h
        exact .inr (.inr ⟨⟨hh, hb⟩, _, _, rfl, rfl, h.symm⟩)
      · cases h

/-- All that a division's submission can answer with a next state: as `submit_next`, or DivideByZero recorded. -/
theorem submitDivision_next {op : Op} {w : Word32} {rd : Reg} {a b : Option U128} {s t : State}
    (h : whenReady s (acceptDivision op w rd a b s) = .next t) :
    (s.halt = true ∧ t = s) ∨ (s.halt = false ∧ s.busy = true ∧ t = withFault 3#4 0x100#32 s)
      ∨ (Ready s ∧ ∃ a', a = some a' ∧ b = some 0#128 ∧ t = withFault 1#4 w s)
      ∨ (Ready s ∧ ∃ a' b', a = some a' ∧ b = some b' ∧ b' ≠ 0#128 ∧ t = withPending op rd a' b' s) := by
  cases hh : s.halt with
  | true =>
    rw [whenReady_halted hh] at h
    injection h with h
    exact .inl ⟨rfl, h.symm⟩
  | false =>
    cases hb : s.busy with
    | true =>
      rw [whenReady_busy hh hb] at h
      injection h with h
      exact .inr (.inl ⟨rfl, rfl, h.symm⟩)
    | false =>
      rw [whenReady_ready ⟨hh, hb⟩] at h
      unfold acceptDivision at h
      split at h
      · split at h
        · injection h with h
          rename_i a' b' h0
          subst h0
          rw [recordFault_running _ _ hh] at h
          exact .inr (.inr (.inl ⟨⟨hh, hb⟩, a', rfl, rfl, h.symm⟩))
        · injection h with h
          rename_i h0
          exact .inr (.inr (.inr ⟨⟨hh, hb⟩, _, _, rfl, rfl, h0, h.symm⟩))
      · cases h

end Sys2Proof.Machine
end

