-- ==== Sys2Proof/Laws/PerInstr.lean ====
section
/-!
SUPPORT. Laws about every command as a piece of text, one lemma per constructor: the word of a command is legal by the
list of 30_encoding R65, which is written apart from the encoder.
-/

namespace Sys2Proof.Laws.EncodesLegal

/-- The word the encoder gives to `i` is legal (30_encoding R65). -/
def Statement (i : Instr) : Prop := illegalWord (encode i) = false

theorem add (rd rs1 rs2 : Reg) : Statement (.add rd rs1 rs2) := by
  simp [Statement, encode, illegalWord, unassignedOpcode, reservedBitsSet, unusedFieldSetFmt2, unusedFieldSetFmt1]

theorem sub (rd rs1 rs2 : Reg) : Statement (.sub rd rs1 rs2) := by
  simp [Statement, encode, illegalWord, unassignedOpcode, reservedBitsSet, unusedFieldSetFmt2, unusedFieldSetFmt1]

theorem mul (rd rs1 rs2 : Reg) : Statement (.mul rd rs1 rs2) := by
  simp [Statement, encode, illegalWord, unassignedOpcode, reservedBitsSet, unusedFieldSetFmt2, unusedFieldSetFmt1]

theorem add64 (rd rs1 rs2 : Reg) : Statement (.add64 rd rs1 rs2) := by
  simp [Statement, encode, illegalWord, unassignedOpcode, reservedBitsSet, unusedFieldSetFmt2, unusedFieldSetFmt1]

theorem sub64 (rd rs1 rs2 : Reg) : Statement (.sub64 rd rs1 rs2) := by
  simp [Statement, encode, illegalWord, unassignedOpcode, reservedBitsSet, unusedFieldSetFmt2, unusedFieldSetFmt1]

theorem mul64 (rd rs1 rs2 : Reg) : Statement (.mul64 rd rs1 rs2) := by
  simp [Statement, encode, illegalWord, unassignedOpcode, reservedBitsSet, unusedFieldSetFmt2, unusedFieldSetFmt1]

theorem div (rd rs1 rs2 : Reg) : Statement (.div rd rs1 rs2) := by
  simp [Statement, encode, illegalWord, unassignedOpcode, reservedBitsSet, unusedFieldSetFmt2, unusedFieldSetFmt1]

theorem mod (rd rs1 rs2 : Reg) : Statement (.mod rd rs1 rs2) := by
  simp [Statement, encode, illegalWord, unassignedOpcode, reservedBitsSet, unusedFieldSetFmt2, unusedFieldSetFmt1]

theorem div64 (rd rs1 rs2 : Reg) : Statement (.div64 rd rs1 rs2) := by
  simp [Statement, encode, illegalWord, unassignedOpcode, reservedBitsSet, unusedFieldSetFmt2, unusedFieldSetFmt1]

theorem mod64 (rd rs1 rs2 : Reg) : Statement (.mod64 rd rs1 rs2) := by
  simp [Statement, encode, illegalWord, unassignedOpcode, reservedBitsSet, unusedFieldSetFmt2, unusedFieldSetFmt1]

theorem lzc (rd rs1 : Reg) : Statement (.lzc rd rs1) := by
  simp [Statement, encode, illegalWord, unassignedOpcode, reservedBitsSet, unusedFieldSetFmt2, unusedFieldSetFmt1]

theorem bin2dec (rs1 : Reg) : Statement (.bin2dec rs1) := by
  simp [Statement, encode, illegalWord, unassignedOpcode, reservedBitsSet, unusedFieldSetFmt2, unusedFieldSetFmt1]

end Sys2Proof.Laws.EncodesLegal
end

