-- ==== Sys2Proof/Laws/Window.lean ====
section
/-!
SUPPORT. The window byte by byte: a byte written reads back and every other byte reads as before (20_memory R42, R45), and
what a read can do to the state (R48).
-/

namespace Sys2Proof.Machine

theorem byteOf_getLsbD (r : U128) (j i : Nat) : (byteOf r j).getLsbD i = (decide (i < 8) && r.getLsbD (8 * j + i)) := by
  simp [byteOf]

theorem setByteOf_getLsbD (r : U128) (j : Nat) (b : Byte) (i : Nat) (hi : i < 128) :
    (setByteOf r j b).getLsbD i = if 8 * j ≤ i ∧ i < 8 * j + 8 then b.getLsbD (i - 8 * j) else r.getLsbD i := by
  have hm : (0xFF#128).getLsbD (i - 8 * j) = decide (i - 8 * j < 8) := by
    rw [show (0xFF#128) = (BitVec.allOnes 8).setWidth 128 from rfl]
    simp only [BitVec.getLsbD_setWidth, BitVec.getLsbD_allOnes]
    simp [show i - 8 * j < 128 by omega]
  have hb : ∀ k, 8 ≤ k → b.getLsbD k = false := fun k => BitVec.getLsbD_of_ge _ _
  simp only [setByteOf, BitVec.getLsbD_or, BitVec.getLsbD_and, BitVec.getLsbD_not, BitVec.getLsbD_shiftLeft,
    BitVec.getLsbD_setWidth, hm]
  by_cases h1 : i < 8 * j
  · simp [h1, hi, show ¬8 * j ≤ i by omega]
  by_cases h2 : i < 8 * j + 8
  · simp [h1, h2, hi, show i - 8 * j < 8 by omega, show 8 * j ≤ i by omega, show i - 8 * j < 128 by omega]
  · simp [h1, h2, hi, show ¬i - 8 * j < 8 by omega, hb (i - 8 * j) (by omega)]

/-- A byte put into a value reads back, and every other byte reads as before (20_memory R42). -/
theorem byteOf_setByteOf (r : U128) {j k : Nat} (b : Byte) (hk : k < 16) :
    byteOf (setByteOf r j b) k = if k = j then b else byteOf r k := by
  apply BitVec.eq_of_getLsbD_eq
  intro i hi
  rw [byteOf_getLsbD, setByteOf_getLsbD _ _ _ _ (by omega)]
  by_cases h : k = j
  · subst h
    simp [hi]
  · rw [if_neg h, byteOf_getLsbD, if_neg (by omega)]

/-- Two values whose 16 bytes agree are equal (20_memory R42). -/
theorem eq_of_byteOf_eq {r q : U128} (h : ∀ j, j < 16 → byteOf r j = byteOf q j) : r = q := by
  apply BitVec.eq_of_getLsbD_eq
  intro i hi
  have hb := congrArg (fun b => b.getLsbD (i % 8)) (h (i / 8) (by omega))
  simp only [byteOf_getLsbD] at hb
  simpa [show i % 8 < 8 by omega, show 8 * (i / 8) + i % 8 = i by omega] using hb

/-- A byte of the window depends only on X0 to X15, DECBUF and their marks. -/
theorem windowByte_congr {s t : State} (hx : t.x = s.x) (hm : t.xMarks = s.xMarks) (hb : t.decBuf = s.decBuf)
    (hd : t.decMarks = s.decMarks) (off : Nat) : windowByte t off = windowByte s off := by
  cases s
  cases t
  cases hx
  cases hm
  cases hb
  cases hd
  rfl

@[simp] theorem reg_storeByte (s : State) {off : Nat} (h : off < 0x100) (b : Byte) (r : Reg) :
    (storeByte off b s).reg r = if r.val = off / 16 then setByteOf (s.reg r) (off % 16) b else s.reg r := by
  simp only [storeByte, h, dite_true, State.reg]
  by_cases e : r.val = off / 16
  · simp [e]
  · simp [e, Ne.symm e]

@[simp] theorem marks_storeByte (s : State) {off : Nat} (h : off < 0x100) (b : Byte) (r : Reg) :
    (storeByte off b s).marks r = if r.val = off / 16 then s.marks r ||| 1#16 <<< (off % 16) else s.marks r := by
  simp only [storeByte, h, dite_true, State.marks]
  by_cases e : r.val = off / 16
  · simp [e]
  · simp [e, Ne.symm e]

/-- A byte written to an operand register reads back; every other byte of the window reads as before (20_memory R45). -/
theorem windowByte_storeByte (s : State) {off : Nat} (h : off < 0x100) (b : Byte) (o : Nat) :
    windowByte (storeByte off b s) o = if o = off then some b else windowByte s o := by
  unfold windowByte
  by_cases ho : o < 0x100
  · simp only [ho, dite_true, reg_storeByte _ h, marks_storeByte _ h]
    by_cases e : o = off
    · subst e
      have hm : (s.marks ⟨o / 16, by omega⟩ ||| 1#16 <<< (o % 16)).getLsbD (o % 16) = true := by
        simp [show o % 16 < 16 by omega]
      simp [hm, byteOf_setByteOf _ b (show o % 16 < 16 by omega)]
    · by_cases e2 : o / 16 = off / 16
      · have hne : o % 16 ≠ off % 16 := by omega
        have hbit : (1#16 <<< (off % 16)).getLsbD (o % 16) = false := by
          simp only [BitVec.getLsbD_shiftLeft, BitVec.getLsbD_one]
          simp
          omega
        simp [e, e2, hbit, byteOf_setByteOf _ b (show o % 16 < 16 by omega), hne]
      · simp [e, e2]
  · have e : o ≠ off := by omega
    simp only [ho, dite_false, e, if_false]
    simp [storeByte, h]

theorem storeByte_keeps (s : State) (off : Nat) (b : Byte) :
    storeByte off b s = { s with x := (storeByte off b s).x, xMarks := (storeByte off b s).xMarks } := by
  unfold storeByte
  split <;> rfl

/-- A write to operand registers changes X0 to X15 and their marks, nothing else (20_memory R45). -/
theorem storeBytes_keeps (s : State) (off : Nat) (v : Word) (n : Nat) :
    storeBytes off v n s = { s with x := (storeBytes off v n s).x, xMarks := (storeBytes off v n s).xMarks } := by
  induction n with
  | zero => rfl
  | succ n ih =>
    simp only [storeBytes]
    rw [storeByte_keeps, ih]

/-- The `n` bytes written read back and every other byte of the window reads as before (20_memory R43, R45). -/
theorem windowByte_storeBytes (s : State) (off : Nat) (v : Word) (n : Nat) (h : off + n ≤ 0x100) (o : Nat) :
    windowByte (storeBytes off v n s) o =
      if off ≤ o ∧ o < off + n then some (v.extractLsb' (8 * (o - off)) 8) else windowByte s o := by
  induction n with
  | zero => simp [storeBytes, show ¬(off ≤ o ∧ o < off) by omega]
  | succ n ih =>
    rw [storeBytes, windowByte_storeByte _ (by omega), ih (by omega)]
    by_cases e : o = off + n
    · subst e
      simp
    · rw [if_neg e]
      exact if_congr (by omega) rfl rfl

/-- The window's bytes as one little-endian value, when every one of them is written (20_memory R43). -/
theorem windowBytes_of_written {s : State} {off : Nat} {v : Word} :
    ∀ n, (∀ k, k < n → windowByte s (off + k) = some (v.extractLsb' (8 * k) 8)) →
      windowBytes s off n = some ((v.setWidth (8 * n)).setWidth 64)
  | 0, _ => by simp [windowBytes, Subsingleton.elim (v.setWidth 0) 0#0]
  | n + 1, h => by
    rw [windowBytes, windowBytes_of_written n (fun k hk => h k (by omega)), h n (by omega)]
    simp only [Option.some.injEq]
    apply BitVec.eq_of_getLsbD_eq
    intro i hi
    simp only [BitVec.getLsbD_or, BitVec.getLsbD_setWidth, BitVec.getLsbD_extractLsb', BitVec.getLsbD_shiftLeft, hi]
    by_cases h1 : i < 8 * n
    · simp [h1, show i < 8 * (n + 1) by omega]
    · by_cases h2 : i < 8 * (n + 1)
      · simp [h1, h2, show i - 8 * n < 8 by omega, show i - 8 * n < 64 by omega, show 8 * n + (i - 8 * n) = i by omega]
      · simp [h1, h2, show ¬i - 8 * n < 8 by omega]

/-- The window's bytes have no value when one of them is not written (20_memory R45). -/
theorem windowBytes_of_unwritten {s : State} {off k : Nat} (h : windowByte s (off + k) = none) :
    ∀ n, k < n → windowBytes s off n = none
  | 0, hk => by omega
  | n + 1, hk => by
    rw [windowBytes]
    by_cases e : k = n
    · subst e
      rw [h]
      split
      · rename_i hb
        cases hb
      · rfl
    · rw [windowBytes_of_unwritten h n (by omega)]

@[simp] theorem rdxValue_two_reads (first second : Word) (rest : List Answer) :
    rdxValue (.data .b8 second :: .data .b8 first :: rest) = some (join second first) := rfl

/-- A legal read changes nothing but the count of draws (20_memory R48). -/
theorem readRow_keeps {kind : RowKind} {off : Offset} {n : Size} {s s' : State} {v : Word}
    (h : readRow kind off n s = .next (v, s')) : s' = s ∨ s' = s.drawn := by
  unfold readRow at h
  split at h
  · injection h with h
    injection h with _ h
    exact .inr h.symm
  · split at h
    · split at h
      · injection h with h
        injection h with _ h
        exact .inl h.symm
      · cases h
    · split at h
      · injection h with h
        injection h with _ h
        exact .inl h.symm
      · cases h
    · split at h
      · injection h with h
        injection h with _ h
        exact .inr h.symm
      · injection h with h
        injection h with _ h
        exact .inl h.symm
    · injection h with h
      injection h with _ h
      exact .inl h.symm

/-- As `readRow_keeps`, for any read of the window. -/
theorem readWindow_keeps {off : Offset} {n : Size} {s s' : State} {v : Word}
    (h : readWindow off n s = .next (v, s')) : s' = s ∨ s' = s.drawn := by
  unfold readWindow at h
  split at h
  · exact readRow_keeps h
  · cases h

theorem readWindow_not_refused (off : Offset) (n : Size) (s : State) (r : Refusal) :
    readWindow off n s ≠ .refused r := by
  unfold readWindow readRow
  intro h
  repeat (split at h <;> try cases h)

/-- The bits of the STATUS word (10_state R22). -/
theorem statusWord_getLsbD (s : State) (i : Nat) :
    (statusWord s).getLsbD i =
      if i = 0 then s.busy else if i = 1 then s.halt else if i = 2 then s.c else if i = 3 then s.v
      else if i < 8 then s.cause.getLsbD (i - 4) else false := by
  have hb : ∀ (b : Bool) (k : Nat), (BitVec.ofBool b).getLsbD k = (decide (k = 0) && b) := by
    intro b k
    cases b <;> rcases k with _ | k <;> simp
  unfold statusWord
  simp only [BitVec.getLsbD_append, hb, BitVec.getLsbD_zero]
  by_cases h0 : i = 0
  · simp [h0]
  by_cases h1 : i = 1
  · simp [h1]
  by_cases h2 : i = 2
  · simp [h2]
  by_cases h3 : i = 3
  · simp [h3]
  simp [h0, h1, h2, h3, show ¬i < 1 by omega, show ¬i - 1 < 1 by omega, show ¬i - 1 - 1 < 1 by omega,
    show ¬i - 1 - 1 - 1 < 1 by omega, show i - 1 - 1 - 1 - 1 = i - 4 by omega]
  by_cases h : i < 8
  · simp [h, show i - 4 < 4 by omega]
  · simp [h, show ¬i - 4 < 4 by omega]

end Sys2Proof.Machine
end

