-- ==== Sys2Proof/Laws/Step.lean ====
section
/-!
SUPPORT. What a step can do, said once: what a submitted command can answer, what a completion can leave, what a line of the
host can do, and so all that a step can do to the unit (`step_change`). Every invariant is derived from these.
-/

namespace Sys2Proof.Machine

/-- What a latch entry that the accept step makes satisfies (30_encoding R62, 43_division R110). -/
def EntryLegal (op : Op) (b : U128) : Prop :=
  (op.divides = true → b ≠ 0#128) ∧ (op.isMixed = true → hi b = 0#64)

/-- All that a submitted command can answer with a next state: ignored, WriteWhileBusy, DivideByZero, or accepted
(30_encoding R70, 60_exceptions R146). -/
def SubmitResult (i : Instr) (s t : State) : Prop :=
  (s.halt = true ∧ t = s)
  ∨ (s.halt = false ∧ s.busy = true ∧ t = withFault 3#4 0x100#32 s)
  ∨ (Ready s ∧ isDivision i = true ∧ t = withFault 1#4 (encode i) s)
  ∨ (Ready s ∧ ∃ op rd a b, EntryLegal op b ∧ t = withPending op rd a b s)

theorem mixedOperand_high {r : Reg} {s : State} {b : U128} (h : mixedOperand r s = some b) : hi b = 0#64 := by
  unfold mixedOperand at h
  split at h
  · injection h with h
    rw [← h, hi_from64]
  · cases h

theorem submitFull_result {i : Instr} {op : Op} {rd rs1 rs2 : Reg} {s t : State} (h1 : op.divides = false)
    (h2 : op.isMixed = false) (h : submitFull op rd rs1 rs2 s = .next t) : SubmitResult i s t := by
  obtain h | h | ⟨hr, a, b, -, -, rfl⟩ := submit_next h
  · exact .inl h
  · exact .inr (.inl h)
  · exact .inr (.inr (.inr ⟨hr, op, rd, a, b, ⟨by simp [h1], by simp [h2]⟩, rfl⟩))

theorem submitMixed_result {i : Instr} {op : Op} {rd rs1 rs2 : Reg} {s t : State} (h1 : op.divides = false)
    (h : submitMixed op rd rs1 rs2 s = .next t) : SubmitResult i s t := by
  obtain h | h | ⟨hr, a, b, -, hb, rfl⟩ := submit_next h
  · exact .inl h
  · exact .inr (.inl h)
  · exact .inr (.inr (.inr ⟨hr, op, rd, a, b, ⟨by simp [h1], fun _ => mixedOperand_high hb⟩, rfl⟩))

theorem submitUnary_result {i : Instr} {op : Op} {rd rs1 : Reg} {s t : State} (h1 : op.divides = false)
    (h2 : op.isMixed = false) (h : submitUnary op rd rs1 s = .next t) : SubmitResult i s t := by
  obtain h | h | ⟨hr, a, b, -, -, rfl⟩ := submit_next h
  · exact .inl h
  · exact .inr (.inl h)
  · exact .inr (.inr (.inr ⟨hr, op, rd, a, b, ⟨by simp [h1], by simp [h2]⟩, rfl⟩))

theorem submitDivision_result {i : Instr} {op : Op} {rd rs1 rs2 : Reg} {s t : State} (hi : isDivision i = true)
    (h2 : op.isMixed = false) (h : submitDivision op (encode i) rd rs1 rs2 s = .next t) : SubmitResult i s t := by
  obtain h | h | ⟨hr, -, -, -, rfl⟩ | ⟨hr, a, b, -, -, h0, rfl⟩ := submitDivision_next h
  · exact .inl h
  · exact .inr (.inl h)
  · exact .inr (.inr (.inl ⟨hr, hi, rfl⟩))
  · exact .inr (.inr (.inr ⟨hr, op, rd, a, b, ⟨fun _ => h0, by simp [h2]⟩, rfl⟩))

theorem submitDivision64_result {i : Instr} {op : Op} {rd rs1 rs2 : Reg} {s t : State} (hi : isDivision i = true)
    (h : submitDivision64 op (encode i) rd rs1 rs2 s = .next t) : SubmitResult i s t := by
  obtain h | h | ⟨hr, -, -, -, rfl⟩ | ⟨hr, a, b, -, hb, h0, rfl⟩ := submitDivision_next h
  · exact .inl h
  · exact .inr (.inl h)
  · exact .inr (.inr (.inl ⟨hr, hi, rfl⟩))
  · exact .inr (.inr (.inr ⟨hr, op, rd, a, b, ⟨fun _ => h0, fun _ => mixedOperand_high hb⟩, rfl⟩))

/-- What `exec` can answer with a next state, for every command. -/
theorem exec_next {i : Instr} {s t : State} (h : exec i s = .next t) : SubmitResult i s t := by
  cases i with
  | add rd rs1 rs2 => exact submitFull_result rfl rfl h
  | sub rd rs1 rs2 => exact submitFull_result rfl rfl h
  | mul rd rs1 rs2 => exact submitFull_result rfl rfl h
  | add64 rd rs1 rs2 => exact submitMixed_result rfl h
  | sub64 rd rs1 rs2 => exact submitMixed_result rfl h
  | mul64 rd rs1 rs2 => exact submitMixed_result rfl h
  | div rd rs1 rs2 => exact submitDivision_result rfl rfl h
  | mod rd rs1 rs2 => exact submitDivision_result rfl rfl h
  | div64 rd rs1 rs2 => exact submitDivision64_result rfl h
  | mod64 rd rs1 rs2 => exact submitDivision64_result rfl h
  | lzc rd rs1 => exact submitUnary_result rfl rfl h
  | bin2dec rs1 => exact submitUnary_result rfl rfl h

/-- All that a completion can leave (30_encoding R72): a result in one register, or the decimal text. -/
theorem complete_cases (p : Pending) (s : State) :
    (p.op ≠ .bin2dec ∧ ∃ w c v, ¬(c = true ∧ v = true) ∧ complete p s = withResult p.rd w c v s)
    ∨ (p.op = .bin2dec ∧ complete p s = completeBin2dec p.a s) := by
  unfold complete
  split
  case h_12 h => exact .inr ⟨h, rfl⟩
  all_goals
    rename_i h
    exact .inl ⟨by simp [h], _, _, _, by simp, rfl⟩

/-- `t` has the unit's state of `s`; the host's fields and the count of draws may differ. -/
def SameUnit (s t : State) : Prop :=
  t = { s with host := t.host, turns := t.turns, answers := t.answers, draws := t.draws }

theorem SameUnit.refl (s : State) : SameUnit s s := rfl

theorem sameUnit_answer (s : State) (a : Answer) : SameUnit s (s.answer a) := rfl

/-- The code and FAULTINFO of a recorded fault (10_state R26, 60_exceptions R140 to R142). -/
def FaultCause (code : BitVec 4) (info : Word32) : Prop :=
  (code = 1#4 ∧ ∃ i, isDivision i = true ∧ info = encode i)
  ∨ (code = 2#4 ∧ ∃ e, decode info = .error e)
  ∨ (code = 3#4 ∧ info.toNat ≤ 0x100)

/-- All that a step can do to the unit. -/
inductive UnitChange (s t : State) : Prop where
  | same (h : SameUnit s t)
  | fault (code : BitVec 4) (info : Word32) (hh : s.halt = false) (legal : FaultCause code info)
      (h : SameUnit (withFault code info s) t)
  | accepted (op : Op) (rd : Reg) (a b : U128) (hr : Ready s) (legal : EntryLegal op b)
      (h : SameUnit (withPending op rd a b s) t)
  | stored (off : Nat) (v : Word) (n : Nat) (hr : Ready s) (fits : off + n ≤ 0x100)
      (h : SameUnit (storeBytes off v n s) t)
  | completed (p : Pending) (hb : s.busy = true) (hp : s.pending = some p) (h : SameUnit (complete p s) t)
  | reset (h : SameUnit State.reset t)

/-- A change seen from a state that has the same unit's state. -/
theorem UnitChange.of_sameUnit {s s' t : State} (hs : SameUnit s s') (h : UnitChange s' t) : UnitChange s t := by
  rw [SameUnit] at hs
  cases h with
  | same h => exact .same (by rw [SameUnit] at h ⊢; rw [h, hs])
  | fault code info hh legal h =>
    refine .fault code info (by rw [hs] at hh; exact hh) legal ?_
    rw [SameUnit] at h ⊢
    rw [h, hs]
    rfl
  | accepted op rd a b hr legal h =>
    refine .accepted op rd a b (by rw [hs] at hr; exact hr) legal ?_
    rw [SameUnit] at h ⊢
    rw [h, hs]
    rfl
  | stored off v n hr fits h =>
    refine .stored off v n (by rw [hs] at hr; exact hr) fits ?_
    have e : ∀ m, (storeBytes off v m s').x = (storeBytes off v m s).x
        ∧ (storeBytes off v m s').xMarks = (storeBytes off v m s).xMarks := by
      intro m
      rw [hs]
      induction m with
      | zero => exact ⟨rfl, rfl⟩
      | succ m ih =>
        simp only [storeBytes, storeByte]
        split
        · simp [State.reg, State.marks, ih.1, ih.2]
        · exact ih
    rw [SameUnit] at h ⊢
    rw [h, storeBytes_keeps s', storeBytes_keeps s, (e n).1, (e n).2, hs]
  | completed p hb hp h =>
    refine .completed p (by rw [hs] at hb; exact hb) (by rw [hs] at hp; exact hp) ?_
    have e : complete p s' = { complete p s with host := s'.host, turns := s'.turns, answers := s'.answers, draws := s'.draws } := by
      rw [hs]
      unfold complete
      split <;> rfl
    rw [SameUnit] at h ⊢
    rw [h, e]
  | reset h => exact .reset h

/-- A legal access lies in a row of the map that allows it, naturally aligned (20_memory R44). -/
theorem legalRow_some {off : Offset} {n : Size} {dir : Dir} {kind : RowKind} (h : legalRow off n dir = some kind) :
    off.toNat % sizeBytes n = 0 ∧ rowAllows kind n dir = true
      ∧ ∃ row ∈ addressMap, row.kind = kind ∧ row.first ≤ off.toNat ∧ off.toNat + sizeBytes n ≤ row.last + 1 := by
  unfold legalRow at h
  split at h
  · rename_i k hk
    split at h
    · rename_i ha
      injection h with h
      subst h
      unfold accessRow at hk
      split at hk
      · rename_i hal
        rw [Option.map_eq_some_iff] at hk
        obtain ⟨row, hf, rfl⟩ := hk
        have hp := List.find?_some hf
        simp only [decide_eq_true_eq] at hp
        exact ⟨hal, ha, row, List.mem_of_find?_eq_some hf, rfl, hp⟩
      · cases hk
    · cases h
  · cases h

/-- A legal access to the operand registers lies below `0x100` (20_memory R41). -/
theorem legalRow_operands {off : Offset} {n : Size} {dir : Dir} (h : legalRow off n dir = some .operands) :
    off.toNat + sizeBytes n ≤ 0x100 := by
  obtain ⟨-, -, row, hm, hk, -, hl⟩ := legalRow_some h
  simp only [addressMap, List.mem_cons, List.not_mem_nil, or_false] at hm
  rcases hm with rfl | rfl | rfl | rfl | rfl | rfl | rfl | rfl | rfl
  case inl => exact hl
  all_goals cases hk

/-- What a CMD write can do to the unit (30_encoding R70). -/
theorem cmdWrite_change {w : Word32} {s t : State} (h : cmdWrite w s = .next t) : UnitChange s t := by
  unfold cmdWrite at h
  split at h
  · rename_i i hd
    obtain ⟨-, rfl⟩ | ⟨hh, -, rfl⟩ | ⟨hr, hi, rfl⟩ | ⟨hr, op, rd, a, b, hl, rfl⟩ := exec_next h
    · exact .same rfl
    · exact .fault 3#4 0x100#32 hh (.inr (.inr ⟨rfl, by decide⟩)) rfl
    · exact .fault 1#4 (encode i) hr.1 (.inl ⟨rfl, i, hi, rfl⟩) rfl
    · exact .accepted op rd a b hr hl rfl
  · rename_i e hd
    cases hh : s.halt with
    | true =>
      rw [whenReady_halted hh] at h
      injection h with h
      subst h
      exact .same rfl
    | false =>
      cases hb : s.busy with
      | true =>
        rw [whenReady_busy hh hb] at h
        injection h with h
        subst h
        exact .fault 3#4 0x100#32 hh (.inr (.inr ⟨rfl, by decide⟩)) rfl
      | false =>
        rw [whenReady_ready ⟨hh, hb⟩, recordFault_running _ _ hh] at h
        injection h with h
        subst h
        exact .fault 2#4 w hh (.inr (.inl ⟨rfl, e, hd⟩)) rfl

/-- What an operand-register write can do to the unit (20_memory R45). -/
theorem writeOperands_change {off : Offset} {n : Size} (v : Word) (s : State)
    (hl : off.toNat + sizeBytes n ≤ 0x100) : UnitChange s (writeOperands off n v s) := by
  unfold writeOperands
  cases hh : s.halt with
  | true => exact .same rfl
  | false =>
    cases hb : s.busy with
    | true =>
      simp only [Bool.false_eq_true, if_false, if_true]
      rw [recordFault_running _ _ hh]
      refine .fault 3#4 (off.setWidth 32) hh (.inr (.inr ⟨rfl, ?_⟩)) rfl
      simp only [BitVec.toNat_setWidth]
      omega
    | false =>
      simp only [Bool.false_eq_true, if_false]
      exact .stored off.toNat v (sizeBytes n) ⟨hh, hb⟩ hl rfl

/-- What one line of the host can do to the unit (30_encoding R69, 20_memory R43 to R48, 70_reset R170). -/
theorem performLine_change {line : HostLine} {s t : State} (h : performLine line s = .next t) : UnitChange s t := by
  cases line with
  | write off n v =>
    simp only [performLine, hostWrite] at h
    split at h
    · exact (cmdWrite_change h).of_sameUnit (sameUnit_answer s .ok)
    · rename_i hl
      injection h with h
      subst h
      exact (writeOperands_change v _ (legalRow_operands hl)).of_sameUnit (sameUnit_answer s .ok)
    · cases h
  | read off n =>
    simp only [performLine, hostRead] at h
    split at h
    · rename_i v s' hr
      injection h with h
      subst h
      obtain rfl | rfl := readWindow_keeps hr <;> exact .same rfl
    · cases h
    · cases h
  | wait =>
    simp only [performLine, hostWait] at h
    split at h
    · rename_i v s' hr
      injection h with h
      subst h
      obtain rfl | rfl := readWindow_keeps hr <;> split <;> exact .same rfl
    · cases h
    · cases h
  | reset =>
    simp only [performLine] at h
    injection h with h
    subst h
    exact .reset rfl

/-- What a unit step can do to the unit (30_encoding R72, 60_exceptions R157). -/
theorem unitStep_change (s : State) : UnitChange s (unitStep s) := by
  unfold unitStep
  split
  · rename_i p hb hp
    exact .completed p hb hp rfl
  · exact .same rfl

theorem takeTurn_sameUnit (s : State) : SameUnit s (takeTurn s).2 := by
  unfold takeTurn
  split <;> rfl

/-- All that a step can do to the unit: nothing, a recorded fault, an accepted command, operand bytes stored, the pending
command completed, or reset. -/
theorem step_change {s t : State} (h : step s = .next t) : UnitChange s t := by
  refine UnitChange.of_sameUnit (takeTurn_sameUnit s) ?_
  unfold step at h
  generalize (takeTurn s).2 = s' at *
  cases ht : (takeTurn s).1 with
  | unit =>
    rw [ht] at h
    injection h with h
    exact h ▸ unitStep_change s'
  | host =>
    rw [ht] at h
    simp only [agentStep, hostStep] at h
    split at h
    · injection h with h
      exact h ▸ .same rfl
    · rename_i line rest _
      refine UnitChange.of_sameUnit (s' := { s' with host := rest }) rfl (performLine_change h)

end Sys2Proof.Machine
end

