-- ==== Sys2Proof/Tests/Slice0.lean ====
section
/-!
SUPPORT. Tests of the model against the vectors of 95_test_vectors, and for every obligation with hypotheses a state and
operands that meet them. Every expected value is the spec's.
-/

namespace Sys2Proof.Tests

open Sys2Proof Sys2Proof.Machine

/-! ## Helpers -/

/-- The unit after reset and the full writes of some operand registers. -/
def loaded (registers : List (Reg × U128)) : State :=
  registers.foldl (fun s p => s.setReg p.1 p.2) State.reset

/-- The state that an outcome gives, if it is a next state, seen through `f`. -/
def seen {α : Type} (f : State → α) (o : Host.Outcome State Fault Refusal) : Option α :=
  match o with
  | .next t => some (f t)
  | _ => none

/-- The fault that an outcome gives, if it is one. -/
def faultOf {α : Type} (o : Host.Outcome α Fault Refusal) : Option Fault :=
  match o with
  | .fault r => some r
  | _ => none

/-- The value a read returns, if it returns one. -/
def valueOf (o : Host.Outcome (Word × State) Fault Refusal) : Option Word :=
  match o with
  | .next (v, _) => some v
  | _ => none

/-- A command submitted and then completed: the result register, C and V. -/
def run (i : Instr) (rd : Reg) (s : State) : Option (U128 × Bool × Bool) :=
  seen (fun t => ((unitStep t).reg rd, (unitStep t).c, (unitStep t).v)) (exec i s)

/-- `X2 = a` and `X3 = b`, both fully written. -/
def two (a b : U128) : State := loaded [(2, a), (3, b)]

/-- `X2 = a` fully written, and `X3 = b` with its high word not written. -/
def twoLow (a b : U128) : State :=
  { loaded [(2, a), (3, b)] with
    xMarks := (State.reset.xMarks.set 2 (BitVec.allOnes 16)).set 3 (0x00FF#16) }

/-- A unit with a DIV of `X2` by `X3` into `X2` pending (95 section 3.11, the BUSY rows). -/
def busyDiv : State := withPending .div 2 10#128 3#128 (two 10#128 3#128)

/-- A unit with a BIN2DEC pending. -/
def busyDec : State := withPending .bin2dec 0 10#128 0#128 (two 10#128 3#128)

/-- A halted unit: a zero divisor was submitted (95 program P3). -/
def halted : State := withFault 1#4 0x00010210#32 (two 5#128 0#128)

/-- A halted unit whose DIV is still pending (95 section 3.11). -/
def haltedBusy : State := withFault 3#4 0x100#32 busyDiv

theorem two_written (a b : U128) : FullyWritten 2 (two a b) ∧ FullyWritten 3 (two a b) := by
  constructor <;> rw [fullyWritten_iff] <;> rfl

theorem twoLow_written (a b : U128) : FullyWritten 2 (twoLow a b) ∧ LowWritten 3 (twoLow a b) := by
  constructor
  · rw [fullyWritten_iff]; rfl
  · rw [lowWritten_iff]; show (0x00FF#16).extractLsb' 0 8 = _; decide

/-! ## Decoding: the words of 95 section 2, bit by bit from 30_encoding R60 -/

theorem test_decode_add : decode 0b00000000000000110010000100000001#32 = .ok (.add 1 2 3) := by decide
theorem test_decode_sub : decode 0b00000000000000110010000100000010#32 = .ok (.sub 1 2 3) := by decide
theorem test_decode_mul : decode 0b00000000000000110010000100000011#32 = .ok (.mul 1 2 3) := by decide
theorem test_decode_add64 : decode 0b00000000000000110010000100000101#32 = .ok (.add64 1 2 3) := by decide
theorem test_decode_sub64 : decode 0b00000000000000110010000100000110#32 = .ok (.sub64 1 2 3) := by decide
theorem test_decode_mul64 : decode 0b00000000000000110010000100000111#32 = .ok (.mul64 1 2 3) := by decide
theorem test_decode_div : decode 0b00000000000000110010000100010000#32 = .ok (.div 1 2 3) := by decide
theorem test_decode_mod : decode 0b00000000000000110010000100010001#32 = .ok (.mod 1 2 3) := by decide
theorem test_decode_div64 : decode 0b00000000000000110010000100010010#32 = .ok (.div64 1 2 3) := by decide
theorem test_decode_mod64 : decode 0b00000000000000110010000100010011#32 = .ok (.mod64 1 2 3) := by decide
theorem test_decode_lzc : decode 0b00000000000000000010000100100000#32 = .ok (.lzc 1 2) := by decide
theorem test_decode_bin2dec : decode 0b00000000000000000010000000110000#32 = .ok (.bin2dec 2) := by decide
theorem test_decode_all_fields : decode 0x000FFF01#32 = .ok (.add 15 15 15) := by decide

/-- Bytes in window order, low byte first, as a CMD write lays them out (20_memory R43). -/
theorem test_decode_bytes : decodeBytes [0x12, 0x21, 0x03, 0x00, 0xAA] = .ok (.div64 1 2 3, [0xAA]) := by decide

theorem test_decode_table_word : decodeTableWord 32 0x00002120 = some (.lzc 1 2) := by decide

/-! ## WellFormed smoke: one ill-formed word for each check, and the decoder refuses it (95 section 2) -/

theorem test_ill_opcode :
    unassignedOpcode 0x00032104#32 = true ∧ decode 0x00032104#32 = .error .unassignedOpcode := by decide
theorem test_ill_opcode_ends :
    unassignedOpcode 0x00032114#32 = true ∧ unassignedOpcode 0x000000FF#32 = true
      ∧ decode 0x00032114#32 = .error .unassignedOpcode ∧ decode 0x000000FF#32 = .error .unassignedOpcode := by decide
theorem test_ill_zero_word : illegalWord 0#32 = true ∧ decode 0#32 = .error .unassignedOpcode := by decide
theorem test_ill_reserved_low :
    reservedBitsSet 0x00132101#32 = true ∧ decode 0x00132101#32 = .error .reservedBits := by decide
theorem test_ill_reserved_top :
    reservedBitsSet 0x80032110#32 = true ∧ decode 0x80032110#32 = .error .reservedBits := by decide
theorem test_ill_lzc_rs2 :
    unusedFieldSetFmt2 0x00012120#32 = true ∧ decode 0x00012120#32 = .error .unusedField := by decide
theorem test_ill_bin2dec_rd :
    unusedFieldSetFmt1 0x00002130#32 = true ∧ decode 0x00002130#32 = .error .unusedField := by decide
theorem test_ill_bin2dec_rs2 :
    unusedFieldSetFmt1 0x00012030#32 = true ∧ decode 0x00012030#32 = .error .unusedField := by decide
theorem test_legal_words :
    illegalWord 0x000FFF01#32 = false ∧ illegalWord 0x0000EF20#32 = false ∧ illegalWord 0x0000F030#32 = false := by decide

/-! ## Results: rows of 95 sections 3.1 to 3.10 -/

/-- 3.1: `Max + 1` wraps with C. -/
theorem test_add_wraps : run (.add 1 2 3) 1 (two max128 1#128) = some (0#128, true, false) := by decide
/-- 3.1: carry out of the low word only; the destination is a source (30_encoding R73). -/
theorem test_add_low_carry :
    run (.add 2 2 3) 2 (two 0x0000000000000000FFFFFFFFFFFFFFFF#128 1#128)
      = some (0x00000000000000010000000000000000#128, false, false) := by decide
/-- 3.2: `0 − 1` wraps with C. -/
theorem test_sub_wraps : run (.sub 1 2 3) 1 (two 0#128 1#128) = some (max128, true, false) := by decide
/-- 3.2: equal high words, the low borrow propagates out. -/
theorem test_sub_borrow_through :
    run (.sub 1 2 3) 1 (two 0x00000000000000010000000000000000#128 0x00000000000000010000000000000001#128)
      = some (max128, true, false) := by decide
/-- 3.3: only the product of the high words is nonzero: result 0, V. -/
theorem test_mul_high_words :
    run (.mul 1 2 3) 1 (two 0x00000000000000010000000000000000#128 0x00000000000000010000000000000000#128)
      = some (0#128, false, true) := by decide
/-- 3.3: `2^128 − 1` exactly fits. -/
theorem test_mul_fits :
    run (.mul 1 2 3) 1 (two 0x00000000000000010000000000000001#128 0x0000000000000000FFFFFFFFFFFFFFFF#128)
      = some (max128, false, false) := by decide
/-- 3.4: carry out of bit 127; `X3.hi` is not written and not read (30_encoding R63). -/
theorem test_add64_carry :
    run (.add64 1 2 3) 1 (twoLow max128 0x0000000000000007FFFFFFFFFFFFFFFF#128)
      = some (0x0000000000000000FFFFFFFFFFFFFFFE#128, true, false) := by decide
/-- 3.5: borrow into the high word. -/
theorem test_sub64_borrow :
    run (.sub64 1 2 3) 1 (twoLow 0x00000000000000010000000000000000#128 0x0000000000000000FFFFFFFFFFFFFFFF#128)
      = some (1#128, false, false) := by decide
/-- 3.6: overflow. -/
theorem test_mul64_overflow :
    run (.mul64 1 2 3) 1 (twoLow max128 0x0000000000000000FFFFFFFFFFFFFFFF#128)
      = some (0xFFFFFFFFFFFFFFFF0000000000000001#128, false, true) := by decide
/-- 3.6: the cross term only, no overflow. -/
theorem test_mul64_cross :
    run (.mul64 1 2 3) 1 (twoLow 0x00000000000000010000000000000003#128 0x00000000000000008000000000000000#128)
      = some (0x80000000000000018000000000000000#128, false, false) := by decide
/-- 3.7: a multi-bit quotient; and a divisor greater than the dividend by its high word only. -/
theorem test_div_rows :
    run (.div 1 2 3) 1 (two 0x0123456789ABCDEF0123456789ABCDEF#128 0x0000000100000000000000000000000F#128)
        = some (0x00000000000000000000000001234567#128, false, false)
      ∧ run (.div 1 2 3) 1 (two 5#128 0x00000000000000010000000000000001#128) = some (0#128, false, false) := by decide
/-- 3.7: a multi-bit quotient's remainder; and a divisor with bit 127 set. -/
theorem test_mod_rows :
    run (.mod 1 2 3) 1 (two 0x0123456789ABCDEF0123456789ABCDEF#128 0x0000000100000000000000000000000F#128)
        = some (0x0000000089ABCDEF01234567789ABCE6#128, false, false)
      ∧ run (.mod 1 2 3) 1 (two max128 0xC0000000000000000000000000000000#128)
        = some (0x3FFFFFFFFFFFFFFFFFFFFFFFFFFFFFFF#128, false, false) := by decide
/-- 3.8: by 10^19, a quotient of more than 64 bits. -/
theorem test_div64_by_ten19 :
    run (.div64 1 2 3) 1 (twoLow max128 0x00000000000000008AC7230489E80000#128)
      = some (0x0000000000000001D83C94FB6D2AC34A#128, false, false) := by decide
/-- 3.8: by 10^19. -/
theorem test_mod64_by_ten19 :
    run (.mod64 1 2 3) 1 (twoLow max128 0x00000000000000008AC7230489E80000#128)
      = some (0x00000000000000002ED503946AEFFFFF#128, false, false) := by decide
/-- 3.9: the source's scenario. -/
theorem test_lzc_one :
    run (.lzc 1 2) 1 (two 0x70000000000000000000000000000000#128 0#128) = some (1#128, false, false) := by decide
/-- 3.9: zero has 128, and 63 comes from the high word. -/
theorem test_lzc_ends :
    run (.lzc 1 2) 1 (two 0#128 0#128) = some (128#128, false, false)
      ∧ run (.lzc 1 2) 1 (two 0x00000000000000010000000000000000#128 0#128) = some (63#128, false, false) := by decide
set_option maxRecDepth 10000 in
/-- 3.10: Max has 39 digits, and DECBUF begins `34028236`; the byte after the text is 0. -/
theorem test_bin2dec_max :
    seen (fun t => ((unitStep t).decLen, valueOf (readWindow 0x120#9 .b8 (unitStep t)),
        valueOf (readWindow 0x147#9 .b1 (unitStep t)))) (exec (.bin2dec 2) (two max128 0#128))
      = some (39#32, some 0x3633323832303433#64, some 0#64) := by decide
set_option maxRecDepth 10000 in
/-- 3.10: 0 is the text `0`. -/
theorem test_bin2dec_zero :
    seen (fun t => ((unitStep t).decLen, valueOf (readWindow 0x120#9 .b8 (unitStep t))))
      (exec (.bin2dec 2) (two 0#128 0#128)) = some (1#32, some 0x30#64) := by decide

/-! ## Faults: rows of 95 section 3.11, STATUS and FAULTINFO -/

/-- STATUS and FAULTINFO after a CMD write. -/
def afterCmd (w : Word32) (s : State) : Option (Word32 × Word32) :=
  seen (fun t => (statusWord t, t.faultInfo)) (cmdWrite w s)

/-- `X0 = a`, `X1 = b`. -/
def zeroOne (a b : U128) : State := loaded [(0, a), (1, b)]

theorem test_fault_div : afterCmd 0x00010210#32 (zeroOne 5#128 0#128) = some (0x12#32, 0x00010210#32) := by decide
theorem test_fault_mod : afterCmd 0x00010211#32 (zeroOne 5#128 0#128) = some (0x12#32, 0x00010211#32) := by decide
theorem test_fault_div64 :
    afterCmd 0x00010212#32 (zeroOne 5#128 0x00000000000000050000000000000000#128)
      = some (0x12#32, 0x00010212#32) := by decide
theorem test_fault_mod64_unwritten_high :
    afterCmd 0x00010213#32
        { zeroOne 5#128 0#128 with
          xMarks := (State.reset.xMarks.set 0 (BitVec.allOnes 16)).set 1 (0x00FF#16) }
      = some (0x12#32, 0x00010213#32) := by decide
theorem test_fault_illegal_wins :
    afterCmd 0x80010210#32 (zeroOne 5#128 0#128) = some (0x22#32, 0x80010210#32)
      ∧ afterCmd 0#32 State.reset = some (0x22#32, 0#32) := by decide
theorem test_fault_unwritten : faultOf (cmdWrite 0x00010210#32 (loaded [(0, 5#128)])) = some .unwrittenRead := by decide
theorem test_fault_busy_cmd :
    seen (fun t => (statusWord t, statusWord (unitStep t), t.faultInfo)) (cmdWrite 0x00010303#32 busyDiv)
      = some (0x33#32, 0x32#32, 0x100#32) := by decide
theorem test_fault_busy_operand :
    seen (fun t => (t.faultInfo, t.reg 3)) (hostWrite 0x030#9 .b8 7#64 busyDiv) = some (0x30#32, 3#128) := by decide
theorem test_fault_bus :
    faultOf (hostWrite 0x104#9 .b4 0#64 State.reset) = some (.hostBusError 0x104#9 .b4 .write)
      ∧ faultOf (readWindow 0x100#9 .b4 State.reset) = some (.hostBusError 0x100#9 .b4 .read)
      ∧ faultOf (readWindow 0x002#9 .b4 State.reset) = some (.hostBusError 0x002#9 .b4 .read) := by decide
theorem test_id : valueOf (readWindow 0x110#9 .b4 State.reset) = some 0x55313238#64 := by decide
/-- Program P2: two bytes of `0xFF`, the source's `to_bytes` scenario. -/
theorem test_window_bytes :
    windowBytes (loaded [(0, 0x00000000000000FF00000000000000FF#128)]) 0x000 8 = some 0xFF#64
      ∧ windowByte (loaded [(0, 0x00000000000000FF00000000000000FF#128)]) 0x008 = some 0xFF#8 := by decide
/-- 3.8, the two steps of case 2 (43_division R118), and a loop row of 3.7. -/
theorem test_reference_division :
    referenceDivide max128 0x8AC7230489E80000#128
        = some (0x0000000000000001D83C94FB6D2AC34A#128, 0x2ED503946AEFFFFF#128)
      ∧ div64x64 0xFFFFFFFFFFFFFFFF#64 0x8AC7230489E80000#64 = some (1#64, 0x7538DCFB7617FFFF#64) := by decide
/-- Section 3.10, the groups of Max. -/
theorem test_groups : decGroups 3 max128 = [3374607431768211455, 4028236692093846346, 3] := by decide
/-- The very next step submits the placed word. -/
theorem test_fetch_word :
    seen (fun t => t.pending.map fun p => (p.op, p.rd)) (step (State.reset.withFetchWord 32 0x00032101))
      = some (some (.add, 1)) := by decide
/-- 30_encoding R69: the expansions of `ldx` and DIVMOD64, and the value `{second, first}` of `rdx`. -/
theorem test_host_program :
    ldx 1 0x00000000000000008AC7230489E80000#128
        = [.write 0x010#9 .b8 0x8AC7230489E80000#64, .write 0x018#9 .b8 0#64]
      ∧ divmod64 2 3 0 1 = some [.write 0x100#9 .b4 0x00010212#64, .wait, .write 0x100#9 .b4 0x00010313#64]
      ∧ rdxValue [.data .b8 0x1#64, .data .b8 0x2#64] = some 0x00000000000000010000000000000002#128
      ∧ rdxValue [.ok, .data .b8 0x2#64] = none
      ∧ divmod 0 3 0 1 = none ∧ assemble "LZC" [9, 0] = some 0x00000920#32 := by decide

/-! ## Witnesses: a state and operands that meet the hypotheses of each obligation together -/

/-- A unit after BIN2DEC of Max: 39 digits, the most that there are. -/
def afterDec : State := completeBin2dec max128 State.reset

theorem afterDec_inv : Inv afterDec :=
  ⟨rfl, fun _ h => (by cases h), .inl ⟨rfl, rfl, rfl⟩, fun h => (by cases h.1), .inr ⟨rfl, max128, rfl, rfl⟩⟩

theorem two_ready (a b : U128) : Ready (two a b) := ⟨rfl, rfl⟩

theorem twoLow_ready (a b : U128) : Ready (twoLow a b) := ⟨rfl, rfl⟩

theorem test_witness_EncodeOfDecode : decode 0x00002030#32 = .ok (.bin2dec 2) := by decide

theorem test_witness_IllegalWordsRaiseIllegalCommand :
    illegalWord 0x00132101#32 = true ∧ Ready State.reset := ⟨by decide, rfl, rfl⟩

theorem test_witness_DecoderTakesExactlyOneWord :
    ([0x01, 0x21, 0x03] : List Byte).length < 4 ∧ ([] : List Byte).length < 4 := by decide

/-- Both ways in which it can be the host's turn, one line of each kind, a legal operand write, a read that answers and one that
faults. -/
theorem test_witness_StepRunsTheSubmittedCommand :
    (State.reset.withFetchWord 32 0x00032101).turns = [.host]
      ∧ (State.reset.withFetchWord 32 0x00032101).host = [.write 0x100#9 .b4 0x00032101#64]
      ∧ decode ((0x00032101#64).setWidth 32) = .ok (.add 1 2 3)
      ∧ ({ State.reset with host := [.write 0x0F8#9 .b8 7#64] } : State).turns = []
      ∧ ({ State.reset with host := [.write 0x0F8#9 .b8 7#64] } : State).busy = false
      ∧ ({ State.reset with host := [.read 0x104#9 .b4, .wait] } : State).host = [.read 0x104#9 .b4, .wait]
      ∧ ({ State.reset with host := [.wait, .reset] } : State).host = [.wait, .reset]
      ∧ ({ State.reset with host := [.reset] } : State).host = [.reset]
      ∧ legalRow 0x0F8#9 .b8 .write = some .operands
      ∧ valueOf (readWindow 0x104#9 .b4 State.reset) = some 0#64
      ∧ faultOf (readWindow 0x000#9 .b1 State.reset) = some .unwrittenRead := by decide

theorem test_witness_AgentsMoveInTurn :
    ({ busyDiv with turns := [.unit, .host] } : State).turns = [.unit, .host]
      ∧ busyDiv.turns = [] ∧ busyDiv.busy = true ∧ busyDiv.pending = some ⟨.div, 2, 10#128, 3#128⟩
      ∧ State.reset.turns = [] ∧ State.reset.busy = false ∧ State.reset.host = [] := by decide

theorem test_witness_AddRunsToItsSum :
    Ready (two max128 1#128) ∧ FullyWritten 2 (two max128 1#128) ∧ FullyWritten 3 (two max128 1#128) :=
  ⟨two_ready _ _, two_written _ _⟩

theorem test_witness_SubRunsToItsDifference :
    Ready (two 0#128 1#128) ∧ FullyWritten 2 (two 0#128 1#128) ∧ FullyWritten 3 (two 0#128 1#128) :=
  ⟨two_ready _ _, two_written _ _⟩

theorem test_witness_MulRunsToItsProduct :
    Ready (two max128 max128) ∧ FullyWritten 2 (two max128 max128) ∧ FullyWritten 3 (two max128 max128) :=
  ⟨two_ready _ _, two_written _ _⟩

/-- With the high word of the right operand not written. -/
theorem test_witness_Add64RunsToItsSum :
    Ready (twoLow max128 1#128) ∧ FullyWritten 2 (twoLow max128 1#128) ∧ LowWritten 3 (twoLow max128 1#128) :=
  ⟨twoLow_ready _ _, twoLow_written _ _⟩

theorem test_witness_Sub64RunsToItsDifference :
    Ready (twoLow 0#128 1#128) ∧ FullyWritten 2 (twoLow 0#128 1#128) ∧ LowWritten 3 (twoLow 0#128 1#128) :=
  ⟨twoLow_ready _ _, twoLow_written _ _⟩

theorem test_witness_Mul64RunsToItsProduct :
    Ready (twoLow max128 2#128) ∧ FullyWritten 2 (twoLow max128 2#128) ∧ LowWritten 3 (twoLow max128 2#128) :=
  ⟨twoLow_ready _ _, twoLow_written _ _⟩

/-- The least divisor, 1. -/
theorem test_witness_DivRunsToItsQuotient :
    Ready (two max128 1#128) ∧ FullyWritten 2 (two max128 1#128) ∧ FullyWritten 3 (two max128 1#128)
      ∧ 1 ≤ ((two max128 1#128).reg 3).toNat :=
  ⟨two_ready _ _, (two_written _ _).1, (two_written _ _).2, by decide⟩

/-- The greatest divisor, Max. -/
theorem test_witness_ModRunsToItsRemainder :
    Ready (two max128 max128) ∧ FullyWritten 2 (two max128 max128) ∧ FullyWritten 3 (two max128 max128)
      ∧ 1 ≤ ((two max128 max128).reg 3).toNat :=
  ⟨two_ready _ _, (two_written _ _).1, (two_written _ _).2, by decide⟩

theorem test_witness_Div64RunsToItsQuotient :
    Ready (twoLow max128 1#128) ∧ FullyWritten 2 (twoLow max128 1#128) ∧ LowWritten 3 (twoLow max128 1#128)
      ∧ 1 ≤ (lo ((twoLow max128 1#128).reg 3)).toNat :=
  ⟨twoLow_ready _ _, (twoLow_written _ _).1, (twoLow_written _ _).2, by decide⟩

theorem test_witness_Mod64RunsToItsRemainder :
    Ready (twoLow max128 7#128) ∧ FullyWritten 2 (twoLow max128 7#128) ∧ LowWritten 3 (twoLow max128 7#128)
      ∧ 1 ≤ (lo ((twoLow max128 7#128).reg 3)).toNat :=
  ⟨twoLow_ready _ _, (twoLow_written _ _).1, (twoLow_written _ _).2, by decide⟩

theorem test_witness_LzcRunsToItsCount : Ready (two 0#128 0#128) ∧ FullyWritten 2 (two 0#128 0#128) :=
  ⟨two_ready _ _, (two_written _ _).1⟩

theorem test_witness_Bin2decRunsToItsText : Ready (two max128 0#128) ∧ FullyWritten 2 (two max128 0#128) :=
  ⟨two_ready _ _, (two_written _ _).1⟩

theorem div_written (a b : U128) : OperandsWritten (.div 1 2 3) (two a b) :=
  ⟨(two_written a b).1, fun _ h => (by cases h; exact (two_written a b).2), fun _ h => (by cases h)⟩

theorem div64_written (a b : U128) : OperandsWritten (.div64 1 2 3) (twoLow a b) :=
  ⟨(twoLow_written a b).1, fun _ h => (by cases h), fun _ h => (by cases h; exact (twoLow_written a b).2)⟩

/-- DIV by 0, DIV64 by a value whose low word is 0, and a command without a divisor that halts a busy unit. -/
theorem test_witness_ZeroDivisorRaisesDivideByZero :
    (isDivision (.div 1 2 3) = true ∧ Ready (two 5#128 0#128) ∧ OperandsWritten (.div 1 2 3) (two 5#128 0#128)
      ∧ secondValue (.div 1 2 3) (two 5#128 0#128) = 0)
    ∧ (isDivision (.div64 1 2 3) = true ∧ Ready (twoLow 5#128 (1#128 <<< 64))
      ∧ OperandsWritten (.div64 1 2 3) (twoLow 5#128 (1#128 <<< 64))
      ∧ secondValue (.div64 1 2 3) (twoLow 5#128 (1#128 <<< 64)) = 0)
    ∧ isDivision (.mul 3 0 1) = false ∧ busyDiv.halt = false
    ∧ exec (.mul 3 0 1) busyDiv = .next (withFault 3#4 0x100#32 busyDiv) :=
  ⟨⟨rfl, two_ready _ _, div_written _ _, by decide⟩, ⟨rfl, twoLow_ready _ _, div64_written _ _, by decide⟩, rfl, rfl, rfl⟩

theorem unwritten_at_reset (i : Instr) : ¬OperandsWritten i State.reset := by
  intro h
  have := h.1 0 (by decide)
  simp [State.marks, State.reset] at this

/-- Both sides: nothing written, and all that DIV reads written. -/
theorem test_witness_UnwrittenOperandBytesStopACommand :
    Ready State.reset ∧ ¬OperandsWritten (.div 1 2 3) State.reset ∧ Ready (two 5#128 1#128)
      ∧ OperandsWritten (.div 1 2 3) (two 5#128 1#128) :=
  ⟨⟨rfl, rfl⟩, unwritten_at_reset _, two_ready _ _, div_written _ _⟩

theorem test_witness_WritesWhileBusyRaiseWriteWhileBusy : busyDiv.halt = false ∧ busyDiv.busy = true := by decide

theorem test_witness_HaltedUnitIgnoresWrites :
    haltedBusy.halt = true ∧ (0x108#9 : Offset) ≠ 0x104#9
      ∧ valueOf (readWindow 0x108#9 .b4 { haltedBusy with halt := false }) = some 0x100#64
      ∧ haltedBusy.busy = true ∧ haltedBusy.pending = some ⟨.div, 2, 10#128, 3#128⟩
      ∧ legalRow 0x100#9 .b8 .write = none ∧ legalRow 0x100#9 .b4 .read = none := by decide

theorem test_witness_FaultsArePrecise :
    (two 5#128 0#128).halt = false
      ∧ seen (fun t => t.halt) (cmdWrite 0x00032110#32 (two 5#128 0#128)) = some true
      ∧ busyDiv.halt = false ∧ (writeOperands 0x030#9 .b8 7#64 busyDiv).halt = true := by decide

/-- Each check with every check before it passed. -/
theorem test_witness_ChecksAreMadeInOrder :
    legalRow 0x102#9 .b2 .write = none ∧ haltedBusy.halt = true ∧ busyDiv.halt = false ∧ busyDiv.busy = true
      ∧ illegalWord 0#32 = true ∧ Ready State.reset
      ∧ decode 0x00032110#32 = .ok (.div 1 2 3) ∧ ¬OperandsWritten (.div 1 2 3) State.reset
      ∧ Ready (two 5#128 0#128) ∧ OperandsWritten (.div 1 2 3) (two 5#128 0#128)
      ∧ secondValue (.div 1 2 3) (two 5#128 0#128) = 0
      ∧ Ready (two 5#128 1#128) ∧ OperandsWritten (.div 1 2 3) (two 5#128 1#128)
      ∧ secondValue (.div 1 2 3) (two 5#128 1#128) ≠ 0 :=
  ⟨by decide, rfl, rfl, rfl, by decide, ⟨rfl, rfl⟩, by decide, unwritten_at_reset _, two_ready _ _, div_written _ _,
    by decide, two_ready _ _, div_written _ _, by decide⟩

/-- A halted unit's step, and a halted unit reset. -/
theorem test_witness_OnlyResetLeavesTheHaltedState :
    halted.halt = true ∧ step halted = .next halted
      ∧ seen (fun t => t.halt) (step { halted with host := [.reset] }) = some false :=
  ⟨rfl, rfl, rfl⟩

/-- A step that sets BUSY, and one that clears it. -/
theorem test_witness_BusyFollowsAcceptAndCompletion :
    ({ two 9#128 3#128 with host := [.write 0x100#9 .b4 0x00032110#64] } : State).busy = false
      ∧ seen (fun t => t.busy) (step { two 9#128 3#128 with host := [.write 0x100#9 .b4 0x00032110#64] }) = some true
      ∧ busyDiv.busy = true ∧ seen (fun t => t.busy) (step busyDiv) = some false
      ∧ Ready (two 9#128 3#128) ∧ seen (fun t => t.halt) (exec (.div 1 2 3) (two 9#128 3#128)) = some false
      ∧ busyDiv.pending = some ⟨.div, 2, 10#128, 3#128⟩ ∧ Inv afterDec :=
  ⟨by decide, by decide, by decide, by decide, two_ready _ _, by decide, by decide, afterDec_inv⟩

theorem test_witness_PendingCommandIsNeverCancelled :
    busyDiv.busy = true ∧ busyDiv.pending = some ⟨.div, 2, 10#128, 3#128⟩
      ∧ seen (fun t => t.pending) (step { busyDiv with turns := [.host] })
        = some (some ⟨.div, 2, 10#128, 3#128⟩) := by decide

/-- A mixed form with its high word 0, a step that changes C, and a submission. -/
theorem test_witness_FlagsFollowTheTable :
    hi (5#128) = 0#64
      ∧ (withPending .add 1 max128 1#128 State.reset).c = false
      ∧ seen (fun t => t.c) (step (withPending .add 1 max128 1#128 State.reset)) = some true
      ∧ seen (fun t => t.busy) (exec (.add 1 2 3) (two max128 1#128)) = some true := by decide

theorem test_witness_CompletionIsFixedByTheLatch :
    (⟨.div, 2, 10#128, 3#128⟩ : Pending).op ≠ .bin2dec ∧ (⟨.bin2dec, 0, 10#128, 0#128⟩ : Pending).op = .bin2dec := by
  decide

/-- A command accepted, and one that records a fault. -/
theorem test_witness_SubmissionFrame :
    seen (fun t => t.busy) (exec (.add 1 2 3) (two max128 1#128)) = some true
      ∧ seen (fun t => t.halt) (exec (.div 1 2 3) (two max128 0#128)) = some true := by decide

/-- The offsets on either side of `X2`. -/
theorem test_witness_ResultCompletionFrame :
    (⟨.div, 2, 10#128, 3#128⟩ : Pending).op ≠ .bin2dec ∧ (1 : Reg) ≠ 2 ∧ (3 : Reg) ≠ 2
      ∧ ¬(0x010 * (2 : Reg).val ≤ 0x01F ∧ 0x01F < 0x010 * (2 : Reg).val + 16)
      ∧ ¬(0x010 * (2 : Reg).val ≤ 0x030 ∧ 0x030 < 0x010 * (2 : Reg).val + 16) := by decide

/-- The offsets on either side of DECBUF. -/
theorem test_witness_DecimalCompletionFrame :
    (⟨.bin2dec, 0, 10#128, 0#128⟩ : Pending).op = .bin2dec
      ∧ ¬((0x120 : Nat) ≤ 0x11F ∧ (0x11F : Nat) < 0x148) ∧ ¬((0x120 : Nat) ≤ 0x148 ∧ (0x148 : Nat) < 0x148) := by decide

/-- A reset from a halted unit with a command pending. -/
theorem test_witness_ResetLeavesTheResetValues :
    performLine .reset haltedBusy = .next (assertReset haltedBusy) := rfl

theorem test_witness_InvKeptByEveryStep : Inv afterDec ∧ step afterDec = .next afterDec := ⟨afterDec_inv, rfl⟩

theorem test_witness_DecbufHoldsDigitsThenZeros : Inv afterDec ∧ afterDec.decMarks = BitVec.allOnes 40 :=
  ⟨afterDec_inv, rfl⟩

/-- The last byte of the last register and of DECBUF, written and not, and a register fully written. -/
theorem test_witness_OperandBytesAreLittleEndian :
    ((loaded [(15, max128)]).marks 15).getLsbD 15 = true ∧ FullyWritten 2 (two 5#128 1#128)
      ∧ afterDec.decMarks.getLsbD 39 = true ∧ (State.reset.marks 15).getLsbD 15 = false
      ∧ State.reset.decMarks.getLsbD 39 = false :=
  ⟨by decide, (two_written _ _).1, rfl, by decide, by decide⟩

theorem test_witness_OperandWriteReadsBack :
    Ready State.reset ∧ legalRow 0x0F8#9 .b8 .write = some .operands ∧ legalRow 0x0FF#9 .b1 .write = some .operands :=
  ⟨⟨rfl, rfl⟩, by decide, by decide⟩

theorem test_witness_OperandWriteFrame :
    Ready State.reset ∧ legalRow 0x000#9 .b8 .write = some .operands ∧ legalRow 0x0FE#9 .b2 .write = some .operands :=
  ⟨⟨rfl, rfl⟩, by decide, by decide⟩

theorem test_witness_TwoWritesLoadARegister : Ready State.reset ∧ (14 : Reg) ≠ 15 := ⟨⟨rfl, rfl⟩, by decide⟩

/-- The boundaries of 20_memory R44: the last legal and the first illegal access of each kind. -/
theorem test_witness_LegalAccesses :
    legalRow 0x0F8#9 .b8 .write = some .operands ∧ legalRow 0x100#9 .b4 .write = some .cmd
      ∧ legalRow 0x100#9 .b8 .write = none ∧ legalRow 0x101#9 .b1 .write = none ∧ legalRow 0x104#9 .b4 .write = none
      ∧ legalRow 0x100#9 .b4 .read = none ∧ legalRow 0x110#9 .b4 .read = some .id
      ∧ legalRow 0x110#9 .b8 .read = none ∧ legalRow 0x114#9 .b4 .read = none
      ∧ legalRow 0x140#9 .b8 .read = some .decBuf ∧ legalRow 0x147#9 .b1 .read = some .decBuf
      ∧ legalRow 0x148#9 .b1 .read = none ∧ legalRow 0x120#9 .b1 .write = none ∧ legalRow 0x0FC#9 .b8 .read = none := by
  decide

/-- An idle unit's read, and a busy unit's; 8 bytes of `X2`, whose bytes are all written, and of `X3`, whose last byte is not. -/
theorem test_witness_ReadsHaveNoSideEffect :
    readWindow 0x104#9 .b4 State.reset = .next (0#64, State.reset) ∧ State.reset.busy = false
      ∧ seen (fun t => t.draws) (hostRead 0x104#9 .b4 busyDiv) = some 1
      ∧ legalRow 0x028#9 .b8 .read = some .operands ∧ legalRow 0x038#9 .b8 .read = some .operands
      ∧ legalRow 0x140#9 .b8 .read = some .decBuf
      ∧ (∀ k, k < sizeBytes .b8 → windowByte (twoLow 0x01020304050607080000000000000000#128 0#128) ((0x028#9).toNat + k)
          = some ((0x0102030405060708#64).extractLsb' (8 * k) 8))
      ∧ windowByte (twoLow 0#128 0#128) ((0x038#9).toNat + 7) = none
      ∧ windowByte State.reset ((0x140#9).toNat + 7) = none :=
  ⟨rfl, rfl, rfl, by decide, by decide, by decide, by decide, by decide, by decide⟩

/-- The first and the last byte of the pending `X2` and of DECBUF, DECLEN, and exact reads beside them. -/
theorem test_witness_ReadsWhileBusyAreFreeDraws :
    busyDiv.busy = true ∧ busyDiv.pending = some ⟨.div, 2, 10#128, 3#128⟩
      ∧ legalRow 0x020#9 .b8 .read = some .operands ∧ (0x020#9).toNat / 16 = 2
      ∧ legalRow 0x02F#9 .b1 .read = some .operands ∧ (0x02F#9).toNat / 16 = 2
      ∧ busyDec.busy = true ∧ busyDec.pending = some ⟨.bin2dec, 0, 10#128, 0#128⟩
      ∧ legalRow 0x120#9 .b8 .read = some .decBuf ∧ legalRow 0x147#9 .b1 .read = some .decBuf
      ∧ legalRow 0x10C#9 .b4 .read = some .decLen
      ∧ legalRow 0x030#9 .b8 .read = some .operands ∧ (0x030#9).toNat / 16 ≠ 2
      ∧ valueOf (readWindow 0x030#9 .b8 { busyDiv with busy := false }) = some 3#64
      ∧ valueOf (readWindow 0x020#9 .b8 { busyDec with busy := false }) = some 10#64
      ∧ faultOf (readWindow 0x040#9 .b8 { busyDiv with busy := false }) = some .unwrittenRead := by decide

theorem test_witness_StatusLayout : halted.busy = false ∧ statusWord halted = 0x12#32 := by decide

theorem test_witness_DivisionIdentityIsExactAndUnique :
    1 ≤ (1#128).toNat ∧ 14 * 7 + 2 = (100#128).toNat ∧ 2 < (7#128).toNat := by decide

theorem test_witness_UnitCheckOfADivision : 1 ≤ (1#128).toNat ∧ 1 ≤ max128.toNat := by decide

/-- One divisor for each path of 43_division R117. -/
theorem test_witness_ReferenceDivisionMeetsTheContract :
    1 ≤ (7#128).toNat ∧ 1 ≤ (0x00000000000000010000000000000001#128).toNat ∧ 1 ≤ max128.toNat := by decide

theorem test_witness_PermittedOptimisationsAgree :
    1 ≤ (1#128).toNat ∧ 1 ≤ (0x80000000000000000000000000000000#128).toNat := by decide

theorem test_witness_LeadingZerosIsTheBitLength : bitLength 0 = 0 ∧ bitLength (2 ^ 128 - 1) = 128 := by decide

theorem test_witness_DecimalRoundTrip : 0 < 2 ^ 128 ∧ 2 ^ 128 - 1 < 2 ^ 128 := by decide

theorem test_witness_ShiftsAndComparisonByWords : 128 ≤ 128 ∧ lsh max128 127 = 0x80000000000000000000000000000000#128 := by
  decide

/-- The least divisor and the greatest wide quotient, and the two ends outside the preconditions. -/
theorem test_witness_WordDivisionsAreExact :
    (1#64 : Word) ≠ 0#64 ∧ (0xFFFFFFFFFFFFFFFE#64).toNat < (0xFFFFFFFFFFFFFFFF#64).toNat
      ∧ (1#64).toNat ≤ (1#64).toNat ∧ (0#64).toNat ≤ (0#64).toNat := by decide

end Sys2Proof.Tests
end

section
/-!
PROOFS. The primitives of 00_scope R14 to R16 against the values: the word-by-word shifts are the shifts of the whole
value, the comparison by words is the order of the values, and the word divisions are exact under their preconditions.
-/

namespace Sys2Proof.Machine

/-! ### Bits of the words of a value (00_scope R11) -/

@[simp] theorem getLsbD_lo (x : U128) (i : Nat) : (lo x).getLsbD i = (decide (i < 64) && x.getLsbD i) := by
  simp [lo]

@[simp] theorem getLsbD_hi (x : U128) (i : Nat) : (hi x).getLsbD i = (decide (i < 64) && x.getLsbD (64 + i)) := by
  simp [hi]

/-! ### The words of a shifted value -/

theorem lo_shiftLeft (x : U128) (n : Nat) : lo (x <<< n) = lo x <<< n := by
  apply BitVec.eq_of_getLsbD_eq
  intro i hi64
  simp only [getLsbD_lo, BitVec.getLsbD_shiftLeft]
  grind

/-- The low word's top `n` bits cross into the high word. -/
theorem hi_shiftLeft_of_lt (x : U128) {n : Nat} (hn : n < 64) :
    hi (x <<< n) = hi x <<< n ||| lo x >>> (64 - n) := by
  apply BitVec.eq_of_getLsbD_eq
  intro i hi64
  simp only [getLsbD_hi, getLsbD_lo, BitVec.getLsbD_or, BitVec.getLsbD_shiftLeft, BitVec.getLsbD_ushiftRight]
  by_cases hcross : i < n
  · have : 64 + i - n = 64 - n + i := by omega
    grind
  · have : 64 + i - n = 64 + (i - n) := by omega
    grind

theorem hi_shiftLeft_of_ge (x : U128) {n : Nat} (hn : 64 ≤ n) : hi (x <<< n) = lo x <<< (n - 64) := by
  apply BitVec.eq_of_getLsbD_eq
  intro i hi64
  simp only [getLsbD_hi, getLsbD_lo, BitVec.getLsbD_shiftLeft]
  have : 64 + i - n = i - (n - 64) := by omega
  grind

theorem hi_ushiftRight (x : U128) (n : Nat) : hi (x >>> n) = hi x >>> n := by
  apply BitVec.eq_of_getLsbD_eq
  intro i hi64
  simp only [getLsbD_hi, BitVec.getLsbD_ushiftRight]
  grind

/-- The high word's low `n` bits cross into the low word. -/
theorem lo_ushiftRight_of_lt (x : U128) {n : Nat} (hn : n < 64) :
    lo (x >>> n) = lo x >>> n ||| hi x <<< (64 - n) := by
  apply BitVec.eq_of_getLsbD_eq
  intro i hi64
  simp only [getLsbD_hi, getLsbD_lo, BitVec.getLsbD_or, BitVec.getLsbD_shiftLeft, BitVec.getLsbD_ushiftRight]
  by_cases hcross : n + i < 64
  · grind
  · have : 64 + (i - (64 - n)) = n + i := by omega
    grind

theorem lo_ushiftRight_of_ge (x : U128) {n : Nat} (hn : 64 ≤ n) : lo (x >>> n) = hi x >>> (n - 64) := by
  apply BitVec.eq_of_getLsbD_eq
  intro i hi64
  simp only [getLsbD_hi, getLsbD_lo, BitVec.getLsbD_ushiftRight]
  have : 64 + (n - 64 + i) = n + i := by omega
  grind

/-! ### Shifts by words (00_scope R15) -/

theorem lsh_eq_shiftLeft (x : U128) (n : Nat) : lsh x n = x <<< n := by
  unfold lsh
  split_ifs with h0 h64 h128
  · rw [h0, BitVec.shiftLeft_zero]
  · rw [← hi_shiftLeft_of_lt x h64, ← lo_shiftLeft, join_hi_lo]
  · have low : (0 : Word) = lo (x <<< n) := by rw [lo_shiftLeft, BitVec.shiftLeft_eq_zero (by omega)]; rfl
    rw [← hi_shiftLeft_of_ge x (by omega), low, join_hi_lo]
  · exact (BitVec.shiftLeft_eq_zero (by omega)).symm

theorem rsh_eq_ushiftRight (x : U128) (n : Nat) : rsh x n = x >>> n := by
  unfold rsh
  split_ifs with h0 h64 h128
  · rw [h0, BitVec.ushiftRight_zero]
  · rw [← lo_ushiftRight_of_lt x h64, ← hi_ushiftRight, join_hi_lo]
  · have high : (0 : Word) = hi (x >>> n) := by rw [hi_ushiftRight, BitVec.ushiftRight_eq_zero (by omega)]; rfl
    rw [← lo_ushiftRight_of_ge x (by omega), high, join_hi_lo]
  · exact (BitVec.ushiftRight_eq_zero (by omega)).symm

theorem lsh_eq_u128 (x : U128) (n : Nat) : lsh x n = u128 (x.toNat * 2 ^ n) := by
  apply BitVec.eq_of_toNat_eq
  rw [lsh_eq_shiftLeft, BitVec.toNat_shiftLeft, Nat.shiftLeft_eq, u128_toNat]

theorem rsh_eq_u128 (x : U128) (n : Nat) : rsh x n = u128 (x.toNat / 2 ^ n) := by
  apply BitVec.eq_of_toNat_eq
  rw [rsh_eq_ushiftRight, BitVec.toNat_ushiftRight, Nat.shiftRight_eq_div_pow, u128_toNat,
    Nat.mod_eq_of_lt ((Nat.div_le_self _ _).trans_lt x.isLt)]

theorem lsh_of_ge (x : U128) {n : Nat} (hn : 128 ≤ n) : lsh x n = zero128 := by
  rw [lsh_eq_shiftLeft]
  exact BitVec.shiftLeft_eq_zero hn

theorem rsh_of_ge (x : U128) {n : Nat} (hn : 128 ≤ n) : rsh x n = zero128 := by
  rw [rsh_eq_ushiftRight]
  exact BitVec.ushiftRight_eq_zero hn

/-! ### Comparison by words (00_scope R16) -/

/-- High words decide unless they tie, since both low words are below `2^64`. -/
theorem cmp_eq_compare (x y : U128) : cmp x y = compare x.toNat y.toNat := by
  have hx := (lo x).isLt
  have hy := (lo y).isLt
  have vx := val_eq x
  have vy := val_eq y
  unfold cmp
  rcases Nat.lt_trichotomy (hi x).toNat (hi y).toNat with h | h | h
  · rw [Nat.compare_eq_lt.mpr h, Nat.compare_eq_lt.mpr (show x.toNat < y.toNat by omega)]
    rfl
  · rw [Nat.compare_eq_eq.mpr h, Ordering.eq_then, vx, vy, h]
    simp [Nat.compare_eq_ite_lt]
  · rw [Nat.compare_eq_gt.mpr h, Nat.compare_eq_gt.mpr (show y.toNat < x.toNat by omega)]
    rfl

/-- Settles O59: each shift by words is the shift of the whole value, and
the comparison by words is the order of the values. -/
theorem shiftsAndComparisonByWords : Obligations.ShiftsAndComparisonByWords :=
  ⟨fun x n => ⟨lsh_eq_u128 x n, rsh_eq_u128 x n, fun hn => ⟨lsh_of_ge x hn, rsh_of_ge x hn⟩⟩, cmp_eq_compare⟩

/-! ### Divisions of words (00_scope R14) -/

theorem div64x64_of_ne_zero (n : Word) {d : Word} (hd : d ≠ 0#64) : div64x64 n d = some (n / d, n % d) :=
  if_neg hd

theorem div64x64_zero (n : Word) : div64x64 n 0#64 = none :=
  if_pos rfl

theorem divideWide_of_le {h d : Word} (l : Word) (hle : d.toNat ≤ h.toNat) : divideWide h l d = none :=
  if_pos (Or.inr hle)

/-- The quotient fits a word because `hi < d`, the remainder because `d` does. -/
theorem divideWide_of_lt {h d : Word} (l : Word) (hlt : h.toNat < d.toNat) :
    ∃ q r, divideWide h l d = some (q, r)
      ∧ q.toNat = (h.toNat * 2 ^ 64 + l.toNat) / d.toNat ∧ r.toNat = (h.toNat * 2 ^ 64 + l.toNat) % d.toNat := by
  have hl := l.isLt
  have hd := d.isLt
  have quotient_lt : (h.toNat * 2 ^ 64 + l.toNat) / d.toNat < 2 ^ 64 := by
    apply Nat.div_lt_of_lt_mul
    omega
  have remainder_lt : (h.toNat * 2 ^ 64 + l.toNat) % d.toNat < 2 ^ 64 := (Nat.mod_lt _ (by omega)).trans hd
  have inside : ¬(d = 0 ∨ d ≤ h) := by
    rintro (rfl | hle)
    · exact Nat.not_lt_zero _ hlt
    · exact Nat.not_lt.mpr hle hlt
  refine ⟨_, _, if_neg inside, ?_, ?_⟩
  · rw [ofNat64_toNat, Nat.mod_eq_of_lt quotient_lt]
  · rw [ofNat64_toNat, Nat.mod_eq_of_lt remainder_lt]

/-- Settles O60: both divisions by cases on their preconditions. -/
theorem wordDivisionsAreExact : Obligations.WordDivisionsAreExact :=
  ⟨fun n _ hd => ⟨_, _, div64x64_of_ne_zero n hd, BitVec.toNat_udiv, BitVec.toNat_umod⟩,
    fun _ l _ _ hlt => divideWide_of_lt l hlt, div64x64_zero, fun _ l _ hle => divideWide_of_le l hle⟩

end Sys2Proof.Machine
end

section
/-!
PROOFS. A word that the decoder refuses is one that 30_encoding R65 lists as illegal: the words that the unit records as
IllegalCommand are illegal.
-/

namespace Sys2Proof

theorem unassignedOpcode_of_ne {w : Word32}
    (h : ∀ op ∈ ([1, 2, 3, 5, 6, 7, 0x10, 0x11, 0x12, 0x13, 0x20, 0x30] : List Byte), w.extractLsb' 0 8 ≠ op) :
    unassignedOpcode w = true := by
  simp only [List.forall_mem_cons, List.not_mem_nil, false_imp_iff, implies_true, and_true] at h
  simp only [unassignedOpcode, Bool.or_eq_true, Bool.and_eq_true, beq_iff_eq, decide_eq_true_eq]
  generalize w.extractLsb' 0 8 = op at h
  bv_omega

theorem regField_eq_zero (w : Word32) (i : Nat) : regField w i = 0 ↔ w.extractLsb' i 4 = 0 := by
  rw [regField, ← BitVec.toFin_inj]
  rfl

/-- A test that was passed with an error did not hold: one step down the decoder's chain. -/
theorem ite_ok_eq_error {p : Prop} [Decidable p] {α ε : Type} {a : α} {x : Except ε α} {e : ε}
    (h : (if p then .ok a else x) = Except.error e) : ¬p ∧ x = .error e := by
  obtain ⟨-, h⟩ | h := ite_cases (P := (· = Except.error e)) h
  · cases h
  · exact h

theorem illegalWord_of_decode_error {w : Word32} {e : DecodeError} (h : decode w = .error e) : illegalWord w = true := by
  simp only [illegalWord, Bool.or_eq_true]
  obtain ⟨reserved, -⟩ | ⟨-, h⟩ := ite_cases (P := (· = Except.error e)) h
  · exact .inl (.inl (.inr (bne_iff_ne.mpr reserved)))
  obtain ⟨add, h⟩ := ite_ok_eq_error h
  obtain ⟨sub, h⟩ := ite_ok_eq_error h
  obtain ⟨mul, h⟩ := ite_ok_eq_error h
  obtain ⟨add64, h⟩ := ite_ok_eq_error h
  obtain ⟨sub64, h⟩ := ite_ok_eq_error h
  obtain ⟨mul64, h⟩ := ite_ok_eq_error h
  obtain ⟨div, h⟩ := ite_ok_eq_error h
  obtain ⟨mod, h⟩ := ite_ok_eq_error h
  obtain ⟨div64, h⟩ := ite_ok_eq_error h
  obtain ⟨mod64, h⟩ := ite_ok_eq_error h
  obtain ⟨lzc, h⟩ | ⟨lzc, h⟩ := ite_cases (P := (· = Except.error e)) h
  · obtain ⟨rs2, -⟩ := ite_ok_eq_error h
    rw [regField_eq_zero] at rs2
    exact .inl (.inr (by simpa [unusedFieldSetFmt2, lzc] using rs2))
  obtain ⟨bin2dec, h⟩ | ⟨bin2dec, -⟩ := ite_cases (P := (· = Except.error e)) h
  · obtain ⟨fields, -⟩ := ite_ok_eq_error h
    rw [regField_eq_zero, regField_eq_zero, not_and_or] at fields
    exact .inr (by simpa [unusedFieldSetFmt1, bin2dec] using fields)
  refine .inl (.inl (.inl (unassignedOpcode_of_ne ?_)))
  simp only [List.forall_mem_cons]
  exact ⟨add, sub, mul, add64, sub64, mul64, div, mod, div64, mod64, lzc, bin2dec, fun _ hn => nomatch hn⟩

end Sys2Proof
end

section
/-!
PROOFS. The invariant of the unit's state holds at reset and every change that a step can make to the unit keeps it
(10_state R22 to R32).
-/

namespace Sys2Proof.Machine

/-- Settles O35. -/
theorem invAtReset : Obligations.InvAtReset where
  latchMatchesBusy := rfl
  latchLegal _ hp := nomatch hp
  faultLegal := .inl ⟨rfl, rfl, rfl⟩
  flagsLegal h := nomatch h.1
  decimalLegal := .inl ⟨rfl, rfl⟩

/-- The invariant speaks of the unit alone, not of the host's fields or the count of draws. -/
theorem Inv.of_sameUnit {s t : State} (inv : Inv s) (h : SameUnit s t) : Inv t := by
  rw [SameUnit] at h
  rw [h]
  exact ⟨inv.latchMatchesBusy, inv.latchLegal, inv.faultLegal, inv.flagsLegal, inv.decimalLegal⟩

theorem faultLegal_withFault {code : BitVec 4} {info : Word32} (s : State) (h : FaultCause code info) :
    FaultLegal (withFault code info s) := by
  obtain ⟨hcode, division⟩ | ⟨hcode, e, illegal⟩ | ⟨hcode, offset⟩ := h
  · exact .inr (.inl ⟨rfl, hcode, division⟩)
  · exact .inr (.inr (.inl ⟨rfl, hcode, illegalWord_of_decode_error illegal⟩))
  · exact .inr (.inr (.inr ⟨rfl, hcode, offset⟩))

theorem Inv.withFault {s : State} (inv : Inv s) {code : BitVec 4} {info : Word32} (h : FaultCause code info) :
    Inv (withFault code info s) :=
  { inv with faultLegal := faultLegal_withFault s h }

theorem Inv.withPending {s : State} (inv : Inv s) {op : Op} (rd : Reg) (a : U128) {b : U128} (h : EntryLegal op b) :
    Inv (withPending op rd a b s) :=
  { inv with
    latchMatchesBusy := rfl
    latchLegal := fun _ hp => Option.some.inj hp ▸ h }

theorem Inv.storeBytes {s : State} (inv : Inv s) (off : Nat) (v : Word) (n : Nat) : Inv (storeBytes off v n s) := by
  rw [storeBytes_keeps]
  exact { inv with }

theorem Inv.withResult {s : State} (inv : Inv s) (rd : Reg) (w : U128) {c v : Bool} (h : ¬(c = true ∧ v = true)) :
    Inv (withResult rd w c v s) :=
  { inv with
    latchMatchesBusy := rfl
    latchLegal := fun _ hp => nomatch hp
    flagsLegal := h }

theorem Inv.completeBin2dec {s : State} (inv : Inv s) (a : U128) : Inv (completeBin2dec a s) :=
  { inv with
    latchMatchesBusy := rfl
    latchLegal := fun _ hp => nomatch hp
    flagsLegal := fun h => nomatch h.1
    decimalLegal := .inr ⟨rfl, a, rfl, rfl⟩ }

theorem Inv.complete {s : State} (inv : Inv s) (p : Pending) : Inv (complete p s) := by
  obtain ⟨-, w, c, v, flags, h⟩ | ⟨-, h⟩ := complete_cases p s
  · exact h ▸ inv.withResult p.rd w flags
  · exact h ▸ inv.completeBin2dec p.a

/-- Every change that a step can make to the unit keeps the invariant. -/
theorem Inv.of_unitChange {s t : State} (inv : Inv s) (change : UnitChange s t) : Inv t := by
  cases change with
  | same h => exact inv.of_sameUnit h
  | fault code info _ legal h => exact (inv.withFault legal).of_sameUnit h
  | accepted op rd a b _ legal h => exact (inv.withPending rd a legal).of_sameUnit h
  | stored off v n _ _ h => exact (inv.storeBytes off v n).of_sameUnit h
  | completed p _ _ h => exact (inv.complete p).of_sameUnit h
  | reset h => exact Inv.of_sameUnit invAtReset h

/-- Settles O36, by the changes that a step can make to the unit. -/
theorem invKeptByEveryStep : Obligations.InvKeptByEveryStep :=
  fun _ _ inv h => inv.of_unitChange (step_change h)

end Sys2Proof.Machine
end

section
/-!
PROOFS. What a step does to BUSY, C and V (10_state R23, R25): a line of the host leaves C and V and sets BUSY only by
submitting a legal command; the unit's turn and reset do the rest.
-/

namespace Sys2Proof.Machine

@[simp] theorem complete_busy (p : Pending) (s : State) : (complete p s).busy = false := by
  obtain ⟨-, w, c, v, -, h⟩ | ⟨-, h⟩ := complete_cases p s
  · rw [h]
    rfl
  · rw [h]
    rfl

theorem unitStep_idle {s : State} (h : s.busy = false) : unitStep s = s := by
  simp [unitStep, h]

theorem unitStep_pending {s : State} {p : Pending} (hb : s.busy = true) (hp : s.pending = some p) :
    unitStep s = complete p s := by
  simp [unitStep, hb, hp]

/-- What the agent that moves does, with its turn and, if it is the host, its line taken (20_memory R50). -/
theorem step_cases {s t : State} (h : step s = .next t) : ∃ turns,
    ((takeTurn s).1 = .unit ∧ t = unitStep { s with turns := turns })
    ∨ ((takeTurn s).1 = .host ∧ s.host = [] ∧ t = { s with turns := turns })
    ∨ ((takeTurn s).1 = .host ∧ ∃ line rest, s.host = line :: rest
        ∧ performLine line { s with turns := turns, host := rest } = .next t) := by
  obtain ⟨turns, taken⟩ : ∃ turns, (takeTurn s).2 = { s with turns := turns } := by
    unfold takeTurn
    split
    · exact ⟨_, rfl⟩
    · exact ⟨s.turns, rfl⟩
  rw [step, taken] at h
  refine ⟨turns, ?_⟩
  cases hturn : (takeTurn s).1 with
  | unit =>
    rw [hturn] at h
    injection h with h
    exact .inl ⟨rfl, h.symm⟩
  | host =>
    rw [hturn] at h
    simp only [agentStep, hostStep] at h
    split at h
    · rename_i hhost
      injection h with h
      exact .inr (.inl ⟨rfl, hhost, h.symm⟩)
    · rename_i line rest hhost
      exact .inr (.inr ⟨rfl, line, rest, hhost, h⟩)

/-- A legal write to CMD is a 4-byte one at `0x100` (20_memory R41, R44). -/
theorem legalRow_cmd {off : Offset} {n : Size} (h : legalRow off n .write = some .cmd) : off = 0x100#9 ∧ n = .b4 := by
  obtain ⟨-, allowed, row, hm, hk, hf, hl⟩ := legalRow_some h
  have size : n = .b4 := by simpa [rowAllows] using allowed
  subst size
  simp only [addressMap, List.mem_cons, List.not_mem_nil, or_false] at hm
  rcases hm with rfl | rfl | rfl | rfl | rfl | rfl | rfl | rfl | rfl
  case inr.inl =>
    simp only [sizeBytes] at hf hl
    exact ⟨by bv_omega, rfl⟩
  all_goals cases hk

/-- `t` has the C, V and BUSY of `s`. -/
def SameFlags (s t : State) : Prop := t.c = s.c ∧ t.v = s.v ∧ t.busy = s.busy

/-- `t` has the C and V of `s`, and BUSY set. -/
def SetsBusy (s t : State) : Prop := t.c = s.c ∧ t.v = s.v ∧ t.busy = true

/-- The line is a write of a legal command word to CMD (30_encoding R69, R70). -/
def SubmitsCommand (line : HostLine) : Prop :=
  ∃ v i, line = .write 0x100#9 .b4 v ∧ decode (v.setWidth 32) = .ok i

theorem recordFault_sameFlags (cause : Cause) (info : Word32) (s : State) : SameFlags s (recordFault cause info s) := by
  unfold recordFault
  split <;> exact ⟨rfl, rfl, rfl⟩

theorem writeOperands_sameFlags (off : Offset) (n : Size) (v : Word) (s : State) :
    SameFlags s (writeOperands off n v s) := by
  unfold writeOperands
  split
  · exact ⟨rfl, rfl, rfl⟩
  split
  · exact recordFault_sameFlags _ _ s
  · rw [storeBytes_keeps]
    exact ⟨rfl, rfl, rfl⟩

theorem readWindow_sameFlags {off : Offset} {n : Size} {s s' : State} {v : Word}
    (h : readWindow off n s = .next (v, s')) : SameFlags s s' := by
  obtain rfl | rfl := readWindow_keeps h <;> exact ⟨rfl, rfl, rfl⟩

/-- The first two checks of a CMD write answer by themselves, or the command goes on (30_encoding R70). -/
theorem whenReady_next {s t : State} {k : Host.Outcome State Fault Refusal} (h : whenReady s k = .next t) :
    (s.halt = true ∧ t = s) ∨ (s.halt = false ∧ s.busy = true ∧ t = withFault 3#4 0x100#32 s)
      ∨ (Ready s ∧ k = .next t) := by
  obtain halted | running := Bool.eq_false_or_eq_true s.halt
  · rw [whenReady_halted halted] at h
    injection h with h
    exact .inl ⟨halted, h.symm⟩
  obtain busy | idle := Bool.eq_false_or_eq_true s.busy
  · rw [whenReady_busy running busy] at h
    injection h with h
    exact .inr (.inl ⟨running, busy, h.symm⟩)
  · rw [whenReady_ready ⟨running, idle⟩] at h
    exact .inr (.inr ⟨⟨running, idle⟩, h⟩)

/-- A submitted command leaves the flags, or it is accepted and sets BUSY alone (30_encoding R70). -/
theorem exec_flags {i : Instr} {s t : State} (h : exec i s = .next t) : SameFlags s t ∨ SetsBusy s t := by
  obtain ⟨-, rfl⟩ | ⟨-, -, rfl⟩ | ⟨-, -, rfl⟩ | ⟨-, op, rd, a, b, -, rfl⟩ := exec_next h
  · exact .inl ⟨rfl, rfl, rfl⟩
  · exact .inl ⟨rfl, rfl, rfl⟩
  · exact .inl ⟨rfl, rfl, rfl⟩
  · exact .inr ⟨rfl, rfl, rfl⟩

/-- A CMD write leaves the flags, or its word is legal and it sets BUSY alone (30_encoding R70). -/
theorem cmdWrite_flags {w : Word32} {s t : State} (h : cmdWrite w s = .next t) :
    SameFlags s t ∨ (SetsBusy s t ∧ ∃ i, decode w = .ok i) := by
  unfold cmdWrite at h
  split at h
  · rename_i i decoded
    exact (exec_flags h).imp_right fun sets => ⟨sets, i, decoded⟩
  · left
    obtain ⟨-, rfl⟩ | ⟨-, -, rfl⟩ | ⟨-, h⟩ := whenReady_next h
    · exact ⟨rfl, rfl, rfl⟩
    · exact ⟨rfl, rfl, rfl⟩
    · injection h with h
      exact h ▸ recordFault_sameFlags _ _ s

/-- What a line of the host does to BUSY, C and V. -/
theorem performLine_flags {line : HostLine} {s t : State} (h : performLine line s = .next t) :
    SameFlags s t ∨ (SetsBusy s t ∧ SubmitsCommand line) ∨ (line = .reset ∧ t = assertReset s) := by
  cases line with
  | write off n v =>
    simp only [performLine, hostWrite] at h
    split at h
    · rename_i legal
      obtain ⟨rfl, rfl⟩ := legalRow_cmd legal
      obtain same | ⟨sets, i, decoded⟩ := cmdWrite_flags h
      · exact .inl same
      · exact .inr (.inl ⟨sets, v, i, rfl, decoded⟩)
    · injection h with h
      exact .inl (h ▸ writeOperands_sameFlags off n v (s.answer .ok))
    · cases h
  | read off n =>
    simp only [performLine, hostRead] at h
    split at h
    · rename_i v s' value
      injection h with h
      have same : SameFlags s s' := readWindow_sameFlags value
      exact .inl (h ▸ same)
    · cases h
    · cases h
  | wait =>
    simp only [performLine, hostWait] at h
    split at h
    · rename_i v s' value
      injection h with h
      have same : SameFlags s s' := readWindow_sameFlags value
      left
      rw [← h]
      split <;> exact same
    · cases h
    · cases h
  | reset =>
    injection h with h
    exact .inr (.inr ⟨rfl, h.symm⟩)

/-- What a step does to BUSY, C and V: nothing, a command accepted, the unit's turn with a command to complete, or reset
(10_state R23, R25). -/
theorem step_flags {s t : State} (h : step s = .next t) :
    SameFlags s t
    ∨ (SetsBusy s t ∧ ∃ line rest, s.host = line :: rest ∧ SubmitsCommand line)
    ∨ ((takeTurn s).1 = .unit ∧ s.busy = true)
    ∨ (t.busy = false ∧ ∃ rest, s.host = .reset :: rest) := by
  obtain ⟨turns, ⟨unit, rfl⟩ | ⟨-, -, rfl⟩ | ⟨-, line, rest, host, h⟩⟩ := step_cases h
  · obtain busy | idle := Bool.eq_false_or_eq_true s.busy
    · exact .inr (.inr (.inl ⟨unit, busy⟩))
    · rw [unitStep_idle (s := { s with turns := turns }) idle]
      exact .inl ⟨rfl, rfl, rfl⟩
  · exact .inl ⟨rfl, rfl, rfl⟩
  · obtain same | ⟨sets, submits⟩ | ⟨rfl, rfl⟩ := performLine_flags h
    · exact .inl same
    · exact .inr (.inl ⟨sets, line, rest, host, submits⟩)
    · exact .inr (.inr (.inr ⟨rfl, rest, host⟩))

/-! ### BUSY -/

theorem exec_sets_busy {i : Instr} {s t : State} (ready : Ready s) (h : exec i s = .next t) (running : t.halt = false) :
    t.busy = true := by
  obtain ⟨halted, -⟩ | ⟨-, busy, -⟩ | ⟨-, -, rfl⟩ | ⟨-, op, rd, a, b, -, rfl⟩ := exec_next h
  · exact absurd (ready.1.symm.trans halted) (by decide)
  · exact absurd (ready.2.symm.trans busy) (by decide)
  · cases running
  · rfl

theorem storeBytes_busy (off : Nat) (v : Word) (n : Nat) (s : State) : (storeBytes off v n s).busy = s.busy := by
  rw [storeBytes_keeps]

theorem SameUnit.busy_eq {s t : State} (h : SameUnit s t) : t.busy = s.busy := by
  rw [SameUnit] at h
  rw [h]

theorem SameUnit.pending_eq {s t : State} (h : SameUnit s t) : t.pending = s.pending := by
  rw [SameUnit] at h
  rw [h]

/-- Only the accept step, on a unit neither halted nor busy, sets BUSY. -/
theorem UnitChange.ready_of_sets_busy {s t : State} (change : UnitChange s t) (idle : s.busy = false)
    (busy : t.busy = true) : Ready s ∧ ∃ p, t.pending = some p := by
  cases change with
  | accepted op rd a b ready _ h => exact ⟨ready, _, h.pending_eq⟩
  | same h => simp [h.busy_eq, idle] at busy
  | fault code info _ _ h => simp [h.busy_eq, withFault, idle] at busy
  | stored off v n _ _ h => simp [h.busy_eq, storeBytes_busy, idle] at busy
  | completed p _ _ h => simp [h.busy_eq] at busy
  | reset h => simp [h.busy_eq, State.reset] at busy

theorem step_sets_busy {s t : State} (h : step s = .next t) (idle : s.busy = false) (busy : t.busy = true) :
    s.halt = false ∧ (∃ p, t.pending = some p)
      ∧ ∃ v rest i, s.host = .write 0x100#9 .b4 v :: rest ∧ decode (v.setWidth 32) = .ok i := by
  obtain ⟨⟨running, -⟩, pending⟩ := (step_change h).ready_of_sets_busy idle busy
  refine ⟨running, pending, ?_⟩
  obtain ⟨-, -, same⟩ | ⟨-, line, rest, host, v, i, rfl, decoded⟩ | ⟨-, set⟩ | ⟨clear, -⟩ := step_flags h
  · simp [same, idle] at busy
  · exact ⟨v, rest, i, host, decoded⟩
  · simp [idle] at set
  · simp [clear] at busy

theorem step_clears_busy {s t : State} (h : step s = .next t) (busy : s.busy = true) (idle : t.busy = false) :
    (takeTurn s).1 = .unit ∨ ∃ rest, s.host = .reset :: rest := by
  obtain ⟨-, -, same⟩ | ⟨⟨-, -, set⟩, -⟩ | ⟨unit, -⟩ | ⟨-, reset⟩ := step_flags h
  · simp [same, busy] at idle
  · simp [set] at idle
  · exact .inl unit
  · exact .inr reset

theorem Inv.busy_iff_pending {s : State} (inv : Inv s) : s.busy = true ↔ ∃ p, s.pending = some p := by
  rw [inv.latchMatchesBusy, Option.isSome_iff_exists]

/-- Settles O27, by what a step does to the flags and what it does to the unit. -/
theorem busyFollowsAcceptAndCompletion : Obligations.BusyFollowsAcceptAndCompletion :=
  ⟨fun _ _ _ => exec_sets_busy, fun s p busy pending => by rw [unitStep_pending busy pending, complete_busy],
    fun _ => rfl, fun _ _ => step_sets_busy, fun _ _ => step_clears_busy, fun _ => Inv.busy_iff_pending⟩

/-! ### C and V -/

theorem add64Carry_eq (a : U128) (d : Word) : add64Carry a d = addCarry a (from64 d) := by
  simp [add64Carry, addCarry]

theorem sub64Borrow_eq (a : U128) (d : Word) : sub64Borrow a d = subBorrow a (from64 d) := by
  simp [sub64Borrow, subBorrow]

theorem mul64Overflow_eq (a : U128) (d : Word) : mul64Overflow a d = mulOverflow a (from64 d) := by
  simp [mul64Overflow, mulOverflow, from64_toNat]

/-- The flags of a completion are the table's, row by row (10_state R25). -/
theorem complete_flags (p : Pending) (s : State) (mixed : p.op.isMixed = true → hi p.b = 0#64) :
    (complete p s).c = flagC p.op p.a p.b ∧ (complete p s).v = flagV p.op p.a p.b := by
  obtain ⟨op, rd, a, b⟩ := p
  cases op with
  | add => exact ⟨addCarry_iff a b, rfl⟩
  | sub => exact ⟨subBorrow_iff a b, rfl⟩
  | add64 =>
    refine ⟨?_, rfl⟩
    change add64Carry a (lo b) = _
    rw [add64Carry_eq, from64_lo_of_hi_zero (mixed rfl), addCarry_iff]
    rfl
  | sub64 =>
    refine ⟨?_, rfl⟩
    change sub64Borrow a (lo b) = _
    rw [sub64Borrow_eq, from64_lo_of_hi_zero (mixed rfl), subBorrow_iff]
    rfl
  | mul64 =>
    refine ⟨rfl, ?_⟩
    change mul64Overflow a (lo b) = _
    rw [mul64Overflow_eq, from64_lo_of_hi_zero (mixed rfl)]
    rfl
  | _ => exact ⟨rfl, rfl⟩

theorem step_changes_flags {s t : State} (h : step s = .next t) (changed : t.c ≠ s.c ∨ t.v ≠ s.v) :
    ((takeTurn s).1 = .unit ∧ s.busy = true) ∨ ∃ rest, s.host = .reset :: rest := by
  obtain ⟨hc, hv, -⟩ | ⟨⟨hc, hv, -⟩, -⟩ | unit | ⟨-, reset⟩ := step_flags h
  · simp [hc, hv] at changed
  · simp [hc, hv] at changed
  · exact .inl unit
  · exact .inr reset

theorem complete_ignores_flags (p : Pending) (s : State) (c v : Bool) :
    complete p { s with c := c, v := v } = complete p s := by
  unfold complete
  split <;> rfl

/-- The first two checks do not look at C and V: with other flags they answer the same, if what follows them does. -/
theorem whenReady_flags {s t : State} {c v : Bool} {k k' : Host.Outcome State Fault Refusal}
    (hk : k = .next t → k' = .next { t with c := c, v := v }) (h : whenReady s k = .next t) :
    whenReady { s with c := c, v := v } k' = .next { t with c := c, v := v } := by
  obtain ⟨halted, rfl⟩ | ⟨running, busy, rfl⟩ | ⟨⟨running, idle⟩, h⟩ := whenReady_next h
  · exact whenReady_halted (s := { t with c := c, v := v }) halted k'
  · exact whenReady_busy (s := { s with c := c, v := v }) running busy k'
  · exact (whenReady_ready (s := { s with c := c, v := v }) ⟨running, idle⟩ k').trans (hk h)

theorem recordFault_flags (cause : Cause) (info : Word32) (s : State) (c v : Bool) :
    recordFault cause info { s with c := c, v := v } = { recordFault cause info s with c := c, v := v } := by
  unfold recordFault
  dsimp only
  split <;> rfl

theorem submit_flags {op : Op} {rd : Reg} {a b : Option U128} {s t : State} {c v : Bool}
    (h : whenReady s (acceptWith op rd a b s) = .next t) :
    whenReady { s with c := c, v := v } (acceptWith op rd a b { s with c := c, v := v })
      = .next { t with c := c, v := v } := by
  refine whenReady_flags (fun accepted => ?_) h
  unfold acceptWith at accepted ⊢
  split at accepted
  · injection accepted with accepted
    rw [← accepted]
    rfl
  · cases accepted

theorem submitDivision_flags {op : Op} {w : Word32} {rd : Reg} {a b : Option U128} {s t : State} {c v : Bool}
    (h : whenReady s (acceptDivision op w rd a b s) = .next t) :
    whenReady { s with c := c, v := v } (acceptDivision op w rd a b { s with c := c, v := v })
      = .next { t with c := c, v := v } := by
  refine whenReady_flags (fun accepted => ?_) h
  unfold acceptDivision at accepted ⊢
  split at accepted
  · split at accepted <;> injection accepted with accepted <;> rw [← accepted]
    · next zero => rw [← recordFault_flags]; exact if_pos zero
    · next nonzero => exact if_neg nonzero
  · cases accepted

/-- A submission does not read C and V: with other flags it answers the same state with those flags (10_state R25). -/
theorem exec_ignores_flags {i : Instr} {s t : State} {c v : Bool} (h : exec i s = .next t) :
    exec i { s with c := c, v := v } = .next { t with c := c, v := v } := by
  cases i with
  | div | mod | div64 | mod64 => exact submitDivision_flags h
  | _ => exact submit_flags h

/-- Settles O29: the table row by row, and what a step does to the flags. -/
theorem flagsFollowTheTable : Obligations.FlagsFollowTheTable :=
  ⟨complete_flags, fun _ _ => step_changes_flags, fun _ => ⟨rfl, rfl⟩, complete_ignores_flags,
    fun _ _ _ _ _ => exec_ignores_flags⟩

end Sys2Proof.Machine
end

section
/-!
PROOFS. The decimal text of a value (44_decimal R130, R131) and what the invariant says of DECBUF and DECLEN (10_state R27,
R30): 1 to 39 digits below ten without a leading zero, then zero bytes.
-/

namespace Sys2Proof.Machine

theorem decDigits_length_le (fuel n : Nat) : (decDigits fuel n).length ≤ fuel := by
  induction fuel generalizing n with
  | zero => simp [decDigits]
  | succ fuel ih =>
    rw [decDigits]
    split
    · exact Nat.le_add_left 1 fuel
    · simpa using ih (n / 10)

theorem decDigits_lt_ten {fuel n d : Nat} (h : d ∈ decDigits fuel n) : d < 10 := by
  induction fuel generalizing n with
  | zero => simp [decDigits] at h
  | succ fuel ih =>
    rw [decDigits] at h
    split at h
    · rw [List.mem_singleton] at h
      omega
    · rw [List.mem_append, List.mem_singleton] at h
      obtain h | rfl := h
      · exact ih h
      · omega

/-- With fuel enough for the number, its first digit is not 0. -/
theorem decDigits_leading_pos {fuel n : Nat} (pos : 0 < n) (fits : n < 10 ^ fuel) :
    ∃ d ds, decDigits fuel n = d :: ds ∧ 0 < d := by
  induction fuel generalizing n with
  | zero => omega
  | succ fuel ih =>
    rw [decDigits]
    split
    · exact ⟨n, [], rfl, pos⟩
    · obtain ⟨d, ds, h, hd⟩ := ih (n := n / 10) (by omega) (by omega)
      exact ⟨d, ds ++ [n % 10], by rw [h, List.cons_append], hd⟩

theorem dec_length_le (n : Nat) : (dec n).length ≤ 39 :=
  decDigits_length_le 39 n

/-- The text of a value has a first digit, and it is not 0 unless it is the only one (44_decimal R130). -/
theorem dec_leading (a : U128) : ∃ d ds, dec a.toNat = d :: ds ∧ (0 < d ∨ ds = []) := by
  obtain zero | pos := Nat.eq_zero_or_pos a.toNat
  · exact ⟨0, [], by rw [zero]; rfl, .inr rfl⟩
  · have fits : a.toNat < 10 ^ 39 := a.isLt.trans (by norm_num)
    obtain ⟨d, ds, h, hd⟩ := decDigits_leading_pos pos fits
    exact ⟨d, ds, h, .inl hd⟩

theorem digitByte_toNat {d : Nat} (h : d < 10) : (digitByte d).toNat = 0x30 + d := by
  simp only [digitByte, BitVec.toNat_add, BitVec.toNat_ofNat]
  omega

theorem decBufOf_getElem (t : List Nat) (i : Nat) (h : i < 40) : (decBufOf t)[i] = decByte t i := by
  simp [decBufOf]

theorem decByte_of_lt {t : List Nat} {i : Nat} (h : i < t.length) : decByte t i = digitByte t[i] := by
  simp [decByte, h]

theorem decByte_of_ge {t : List Nat} {i : Nat} (h : t.length ≤ i) : decByte t i = 0#8 := by
  simp [decByte, h]

/-- Every byte of the text is an ASCII digit, and every byte after it is 0 (44_decimal R131). -/
theorem decByte_dec (n i : Nat) :
    if i < (dec n).length then 0x30 ≤ (decByte (dec n) i).toNat ∧ (decByte (dec n) i).toNat ≤ 0x39
    else decByte (dec n) i = 0x00#8 := by
  split
  next inside =>
    have digit : (dec n)[i] < 10 := decDigits_lt_ten (List.getElem_mem inside)
    rw [decByte_of_lt inside, digitByte_toNat digit]
    omega
  next outside => exact decByte_of_ge (Nat.not_lt.mp outside)

theorem decByte_dec_leading (a : U128) : decByte (dec a.toNat) 0 ≠ 0x30#8 ∨ (dec a.toNat).length = 1 := by
  obtain ⟨d, ds, text, pos | rfl⟩ := dec_leading a
  · left
    have digit : d < 10 := decDigits_lt_ten (fuel := 39) (n := a.toNat) (by rw [← dec, text]; exact List.mem_cons_self)
    rw [text, decByte_of_lt (by simp)]
    intro zero
    have value : 0x30 + d = 0x30 := by simpa [digitByte_toNat digit] using congrArg BitVec.toNat zero
    omega
  · right
    rw [text]
    rfl

theorem declen_toNat (n : Nat) : (BitVec.ofNat 32 (dec n).length).toNat = (dec n).length := by
  have := dec_length_le n
  rw [BitVec.toNat_ofNat]
  omega

theorem DecimalLegal.decLen_le {s : State} (h : DecimalLegal s) : s.decLen.toNat ≤ 39 := by
  obtain ⟨-, len⟩ | ⟨-, a, len, -⟩ := h
  · simp [len]
  · rw [len, declen_toNat]
    exact dec_length_le _

theorem extractLsb'_eq_zero_of_toNat_lt {w : Word32} (h : w.toNat < 2 ^ 6) : w.extractLsb' 6 26 = 0#26 := by
  apply BitVec.eq_of_toNat_eq
  rw [BitVec.extractLsb'_toNat, Nat.shiftRight_eq_div_pow, Nat.div_eq_of_lt h]
  rfl

/-- A written DECBUF holds the text of one value. -/
theorem DecimalLegal.text {s : State} (h : DecimalLegal s) (written : s.decMarks = BitVec.allOnes 40) :
    ∃ a : U128, s.decLen.toNat = (dec a.toNat).length ∧ s.decBuf = decBufOf (dec a.toNat) := by
  obtain ⟨unwritten, -⟩ | ⟨-, a, len, buf⟩ := h
  · exact absurd (unwritten.symm.trans written) (by decide)
  · exact ⟨a, by rw [len, declen_toNat], buf⟩

/-- Settles O37: a written DECBUF holds the text of one value, whose digits `decByte_dec` gives. -/
theorem decbufHoldsDigitsThenZeros : Obligations.DecbufHoldsDigitsThenZeros := by
  intro s inv
  have short := inv.decimalLegal.decLen_le
  refine ⟨short, extractLsb'_eq_zero_of_toNat_lt (by omega), fun written => ?_⟩
  obtain ⟨a, len, buf⟩ := inv.decimalLegal.text written
  obtain ⟨d, ds, text, -⟩ := dec_leading a
  simp only [len, buf, decBufOf_getElem]
  exact ⟨by simp [text], decByte_dec_leading a, fun i _ => decByte_dec a.toNat i⟩

end Sys2Proof.Machine
end

section
/-!
PROOFS. The control registers as a read shows them (10_state R22, R26, R27, R28), that none of them can be written (20_memory
R44), and the reset values (10_state R33).
-/

namespace Sys2Proof.Machine

theorem readWindow_legal {off : Offset} {n : Size} {kind : RowKind} (legal : legalRow off n .read = some kind) (s : State) :
    readWindow off n s = readRow kind off n s := by
  rw [readWindow, legal]

theorem hostWrite_illegal {off : Offset} {n : Size} (illegal : legalRow off n .write = none) (v : Word) (s : State) :
    hostWrite off n v s = .fault (.hostBusError off n .write) := by
  rw [hostWrite, illegal]

theorem readsPendingResult_idle (kind : RowKind) (off : Offset) {s : State} (idle : s.busy = false) :
    readsPendingResult kind off s = false := by
  simp [readsPendingResult, idle]

/-- No completion writes FAULTINFO or ID (20_memory R47). -/
theorem readsPendingResult_exact {kind : RowKind} (register : kind = .faultInfo ∨ kind = .id) (off : Offset) (s : State) :
    readsPendingResult kind off s = false := by
  obtain rfl | rfl := register <;> unfold readsPendingResult <;> split <;> rfl

/-- A read of one of the 32-bit registers that shows it as it is: any but STATUS (20_memory R45). -/
theorem readRow_word {kind : RowKind} {off : Offset} {n : Size} {s : State}
    (register : kind = .faultInfo ∨ kind = .decLen ∨ kind = .id) (known : readsPendingResult kind off s = false) :
    readRow kind off n s = .next ((rowWord kind s).setWidth 64, s) := by
  obtain rfl | rfl | rfl := register <;> simp [readRow, known]

theorem readWindow_status_idle {s : State} (idle : s.busy = false) :
    readWindow 0x104#9 .b4 s = .next ((statusWord s).setWidth 64, s) := by
  rw [readWindow_legal (kind := .status) (by decide), readRow]
  simp [readsPendingResult_idle, idle]

theorem readWindow_faultInfo (s : State) : readWindow 0x108#9 .b4 s = .next (s.faultInfo.setWidth 64, s) := by
  rw [readWindow_legal (kind := .faultInfo) (by decide)]
  exact readRow_word (.inl rfl) (readsPendingResult_exact (.inl rfl) _ s)

theorem readWindow_decLen_idle {s : State} (idle : s.busy = false) :
    readWindow 0x10C#9 .b4 s = .next (s.decLen.setWidth 64, s) := by
  rw [readWindow_legal (kind := .decLen) (by decide)]
  exact readRow_word (.inr (.inl rfl)) (readsPendingResult_idle _ _ idle)

theorem readWindow_id (s : State) : readWindow 0x110#9 .b4 s = .next (0x55313238#64, s) := by
  rw [readWindow_legal (kind := .id) (by decide)]
  exact readRow_word (.inr (.inr rfl)) (readsPendingResult_exact (.inr rfl) _ s)

/-- Settles O47. -/
theorem idReadsItsConstant : Obligations.IdReadsItsConstant := fun s =>
  ⟨readWindow_id s, readWindow_id (assertReset s), fun n v => hostWrite_illegal (by cases n <;> decide) v s⟩

theorem statusWord_cause (s : State) : (statusWord s).extractLsb' 4 4 = s.cause := by
  apply BitVec.eq_of_getLsbD_eq
  intro i hi
  simp only [BitVec.getLsbD_extractLsb', statusWord_getLsbD, hi]
  simp [show ¬4 + i = 1 by omega, show ¬4 + i = 2 by omega, show ¬4 + i = 3 by omega, show 4 + i < 8 by omega]

theorem statusWord_reserved (s : State) : (statusWord s).extractLsb' 8 24 = 0#24 := by
  apply BitVec.eq_of_getLsbD_eq
  intro i hi
  simp only [BitVec.getLsbD_extractLsb', statusWord_getLsbD, hi]
  simp [show ¬8 + i = 1 by omega, show ¬8 + i = 2 by omega, show ¬8 + i = 3 by omega, show ¬8 + i < 8 by omega]

/-- What an idle unit's STATUS shows (10_state R22). -/
theorem statusWord_layout {s : State} (idle : s.busy = false) :
    (statusWord s).getLsbD 0 = false ∧ (statusWord s).getLsbD 1 = s.halt ∧ (statusWord s).getLsbD 2 = s.c
      ∧ (statusWord s).getLsbD 3 = s.v ∧ (statusWord s).extractLsb' 4 4 = s.cause
      ∧ (statusWord s).extractLsb' 8 24 = 0#24 :=
  ⟨(statusWord_getLsbD s 0).trans idle, statusWord_getLsbD s 1, statusWord_getLsbD s 2, statusWord_getLsbD s 3,
    statusWord_cause s, statusWord_reserved s⟩

/-- Settles O46, by the bits of the STATUS word. -/
theorem statusLayout : Obligations.StatusLayout := fun s =>
  ⟨fun idle => ⟨statusWord s, readWindow_status_idle idle, statusWord_layout idle⟩, readWindow_faultInfo s,
    readWindow_decLen_idle, fun n v =>
      ⟨hostWrite_illegal (by cases n <;> decide) v s, hostWrite_illegal (by cases n <;> decide) v s,
        hostWrite_illegal (by cases n <;> decide) v s⟩⟩

theorem windowByte_reset (off : Nat) : windowByte State.reset off = none := by
  unfold windowByte
  split
  · simp [State.marks, State.reset]
  split
  · simp [State.reset]
  · rfl

theorem SameUnit.windowByte_eq {s t : State} (h : SameUnit s t) (off : Nat) : windowByte t off = windowByte s off := by
  rw [SameUnit] at h
  exact windowByte_congr (by rw [h]) (by rw [h]) (by rw [h]) (by rw [h]) off

/-- What a unit with the reset values shows (10_state R33). -/
theorem reset_values {t : State} (h : SameUnit State.reset t) :
    t.busy = false ∧ t.halt = false ∧ t.c = false ∧ t.v = false ∧ t.cause = 0#4 ∧ t.faultInfo = 0#32
      ∧ t.decLen = 0#32 ∧ t.pending = none := by
  rw [SameUnit] at h
  rw [h]
  exact ⟨rfl, rfl, rfl, rfl, rfl, rfl, rfl, rfl⟩

/-- Settles O34: a reset line leaves the unit's state of `State.reset`. -/
theorem resetLeavesTheResetValues : Obligations.ResetLeavesTheResetValues := by
  intro s t h
  have unit : SameUnit State.reset t := by
    obtain rfl | h := h
    · exact SameUnit.refl State.reset
    · injection h with h
      rw [← h]
      rfl
  obtain ⟨busy, halt, c, v, cause, faultInfo, decLen, pending⟩ := reset_values unit
  refine ⟨busy, halt, c, v, cause, faultInfo, decLen, pending, fun off => ?_, ?_, ?_, ?_, readWindow_id t⟩
  · rw [unit.windowByte_eq, windowByte_reset]
  · rw [readWindow_status_idle busy, statusWord, busy, halt, c, v, cause]
    rfl
  · rw [readWindow_faultInfo, faultInfo]
    rfl
  · rw [readWindow_decLen_idle busy, decLen]
    rfl

end Sys2Proof.Machine
end

section
/-!
PROOFS. Whose turn it is (20_memory R50): the first of the listed turns, and with none listed the unit's while it is busy.
-/

namespace Sys2Proof.Machine

theorem step_listed_turn {s : State} {turn : Turn} {ts : List Turn} (listed : s.turns = turn :: ts) :
    step s = agentStep turn { s with turns := ts } := by
  simp [step, takeTurn, listed]

theorem step_no_turn {s : State} (none_listed : s.turns = []) :
    step s = agentStep (if s.busy then .unit else .host) s := by
  simp [step, takeTurn, none_listed]

theorem hostStep_no_line {s : State} (done : s.host = []) : hostStep s = .next s := by
  simp [hostStep, done]

/-- Settles O7, by who moves with and without a turn listed. -/
theorem agentsMoveInTurn : Obligations.AgentsMoveInTurn := by
  refine ⟨fun s ts listed => step_listed_turn listed, fun s p none_listed busy pending => ?_,
    fun s none_listed idle done => ?_⟩
  · rw [step_no_turn none_listed, busy, ← unitStep_pending busy pending]
    rfl
  · rw [step_no_turn none_listed, idle, ← hostStep_no_line done]
    rfl

end Sys2Proof.Machine
end

section
/-!
PROOFS. Which accesses are legal (20_memory R41, R44): the rows of the address map do not overlap, so an access is legal
exactly when it is aligned and lies in a row that allows it. Every other access is a bus error (R46).
-/

namespace Sys2Proof.Machine

theorem sizeBytes_pos (n : Size) : 0 < sizeBytes n := by
  cases n <;> decide

theorem addressMap_disjoint :
    ∀ row ∈ addressMap, ∀ row' ∈ addressMap, row = row' ∨ row.last < row'.first ∨ row'.last < row.first := by
  decide

/-- The row that holds an access is the one the search finds, since no other row holds any of its bytes. -/
theorem accessRow_of_mem {off : Offset} {n : Size} {row : MapRow} (aligned : off.toNat % sizeBytes n = 0)
    (mem : row ∈ addressMap) (first : row.first ≤ off.toNat) (last : off.toNat + sizeBytes n ≤ row.last + 1) :
    accessRow off n = some row.kind := by
  rw [accessRow, if_pos aligned, Option.map_eq_some_iff]
  have nonempty := sizeBytes_pos n
  cases found : addressMap.find? fun r => decide (r.first ≤ off.toNat ∧ off.toNat + sizeBytes n ≤ r.last + 1) with
  | none =>
    have outside := List.find?_eq_none.mp found row mem
    simp [first, last] at outside
  | some row' =>
    have inside := List.find?_some found
    obtain ⟨first', last'⟩ := of_decide_eq_true inside
    obtain rfl | before | after := addressMap_disjoint row mem row' (List.mem_of_find?_eq_some found)
    · exact ⟨row, rfl, rfl⟩
    · omega
    · omega

theorem legalRow_of_mem {off : Offset} {n : Size} {dir : Dir} {row : MapRow} (aligned : off.toNat % sizeBytes n = 0)
    (allowed : rowAllows row.kind n dir = true) (mem : row ∈ addressMap) (first : row.first ≤ off.toNat)
    (last : off.toNat + sizeBytes n ≤ row.last + 1) : legalRow off n dir = some row.kind := by
  rw [legalRow, accessRow_of_mem aligned mem first last]
  exact if_pos allowed

/-- An access is legal exactly when it is aligned and lies in a row that allows it (20_memory R44). -/
theorem legalRow_ne_none_iff (off : Offset) (n : Size) (dir : Dir) :
    legalRow off n dir ≠ none ↔ off.toNat % sizeBytes n = 0 ∧ ∃ row ∈ addressMap,
      rowAllows row.kind n dir = true ∧ row.first ≤ off.toNat ∧ off.toNat + sizeBytes n ≤ row.last + 1 := by
  constructor
  · intro legal
    obtain ⟨kind, legal⟩ := Option.ne_none_iff_exists'.mp legal
    obtain ⟨aligned, allowed, row, mem, rfl, fits⟩ := legalRow_some legal
    exact ⟨aligned, row, mem, allowed, fits⟩
  · rintro ⟨aligned, row, mem, allowed, first, last⟩
    simp [legalRow_of_mem aligned allowed mem first last]

/-- The operand registers take every aligned access below `0x100`, in both directions (20_memory R44). -/
theorem legalRow_operands_iff (off : Offset) (n : Size) (dir : Dir) :
    legalRow off n dir = some .operands ↔ off.toNat % sizeBytes n = 0 ∧ off.toNat + sizeBytes n ≤ 0x100 := by
  constructor
  · intro legal
    exact ⟨(legalRow_some legal).1, legalRow_operands legal⟩
  · rintro ⟨aligned, below⟩
    exact legalRow_of_mem (row := ⟨0x000, 0x0FF, .operands⟩) aligned rfl (by decide) (Nat.zero_le _) below

/-- Only the rows of the operand registers and of CMD allow a write. -/
theorem legal_write_iff (off : Offset) (n : Size) :
    legalRow off n .write ≠ none ↔
      off.toNat % sizeBytes n = 0 ∧ (off.toNat + sizeBytes n ≤ 0x100 ∨ (off.toNat = 0x100 ∧ sizeBytes n = 4)) := by
  rw [legalRow_ne_none_iff]
  refine and_congr_right fun _ => ?_
  cases n <;> simp [addressMap, rowAllows, sizeBytes] <;> omega

/-- Every row but those of CMD and the unmapped offsets allows a read, the 32-bit registers only a 4-byte one. -/
theorem legal_read_iff (off : Offset) (n : Size) :
    legalRow off n .read ≠ none ↔
      off.toNat % sizeBytes n = 0
        ∧ (off.toNat + sizeBytes n ≤ 0x100 ∨ (0x120 ≤ off.toNat ∧ off.toNat + sizeBytes n ≤ 0x148)
            ∨ (sizeBytes n = 4 ∧ (off.toNat = 0x104 ∨ off.toNat = 0x108 ∨ off.toNat = 0x10C ∨ off.toNat = 0x110))) := by
  rw [legalRow_ne_none_iff]
  refine and_congr_right fun _ => ?_
  cases n <;> simp [addressMap, rowAllows, sizeBytes] <;> omega

theorem hostRead_illegal {off : Offset} {n : Size} (illegal : legalRow off n .read = none) (s : State) :
    hostRead off n s = .fault (.hostBusError off n .read) := by
  rw [hostRead, readWindow, illegal]

/-- Settles O43, by the rows of the address map that allow each direction. -/
theorem legalAccesses : Obligations.LegalAccesses := fun off n =>
  ⟨legal_write_iff off n, legal_read_iff off n, fun v s illegal => hostWrite_illegal illegal v s,
    fun s illegal => hostRead_illegal illegal s⟩

/-- What a legal read can reach (20_memory R44). -/
theorem legalRow_read_kind {off : Offset} {n : Size} {kind : RowKind} (legal : legalRow off n .read = some kind) :
    (kind = .operands ∨ kind = .decBuf) ∨ kind = .status ∨ kind = .faultInfo ∨ kind = .decLen ∨ kind = .id := by
  obtain ⟨-, allowed, -⟩ := legalRow_some legal
  cases kind <;> simp [rowAllows] at allowed ⊢

end Sys2Proof.Machine
end

section
/-!
PROOFS. Where the bytes of X0 to X15 and DECBUF sit in the window and that each word is little-endian (20_memory R42, R43).
-/

namespace Sys2Proof.Machine

theorem windowByte_reg (s : State) (n : Reg) {j : Nat} (hj : j < 16) :
    windowByte s (0x010 * n.val + j) = if (s.marks n).getLsbD j then some (byteOf (s.reg n) j) else none := by
  have register : (0x010 * n.val + j) / 16 = n.val := by omega
  have byte : (0x010 * n.val + j) % 16 = j := by omega
  have inside : 0x010 * n.val + j < 0x100 := by omega
  simp only [windowByte, inside, dite_true, register, byte, Fin.eta]

theorem windowByte_decBuf (s : State) {i : Nat} (hi : i < 40) :
    windowByte s (0x120 + i) = if s.decMarks.getLsbD i then some s.decBuf[i] else none := by
  have above : ¬0x120 + i < 0x100 := by omega
  have inside : 0x120 ≤ 0x120 + i ∧ 0x120 + i < 0x148 := by omega
  rw [windowByte, dif_neg above, dif_pos inside]
  simp only [Nat.add_sub_cancel_left]

theorem byteOf_lo (r : U128) {k : Nat} (hk : k < 8) : byteOf r k = (lo r).extractLsb' (8 * k) 8 := by
  apply BitVec.eq_of_getLsbD_eq
  intro i inside
  simp only [byteOf_getLsbD, BitVec.getLsbD_extractLsb', getLsbD_lo, inside, show 8 * k + i < 64 by omega, decide_true,
    Bool.true_and]

theorem byteOf_hi (r : U128) {k : Nat} (hk : k < 8) : byteOf r (8 + k) = (hi r).extractLsb' (8 * k) 8 := by
  apply BitVec.eq_of_getLsbD_eq
  intro i inside
  simp only [byteOf_getLsbD, BitVec.getLsbD_extractLsb', getLsbD_hi, inside, show 8 * k + i < 64 by omega, decide_true,
    Bool.true_and, show 8 * (8 + k) + i = 64 + (8 * k + i) by omega]

theorem windowByte_lo {s : State} {n : Reg} (written : FullyWritten n s) {k : Nat} (hk : k < 8) :
    windowByte s (0x010 * n.val + k) = some ((lo (s.reg n)).extractLsb' (8 * k) 8) := by
  rw [windowByte_reg s n (by omega), if_pos (written k (by omega)), byteOf_lo _ hk]

theorem windowByte_hi {s : State} {n : Reg} (written : FullyWritten n s) {k : Nat} (hk : k < 8) :
    windowByte s (0x010 * n.val + 8 + k) = some ((hi (s.reg n)).extractLsb' (8 * k) 8) := by
  rw [Nat.add_assoc, windowByte_reg s n (by omega), if_pos (written (8 + k) (by omega)), byteOf_hi _ hk]

/-- Eight written bytes that are the bytes of a word read as that word. -/
theorem windowBytes_word {s : State} {off : Nat} {w : Word}
    (written : ∀ k, k < 8 → windowByte s (off + k) = some (w.extractLsb' (8 * k) 8)) : windowBytes s off 8 = some w := by
  simpa using windowBytes_of_written 8 written

/-- Settles O39, by the byte of the window at each offset. -/
theorem operandBytesAreLittleEndian : Obligations.OperandBytesAreLittleEndian := by
  refine ⟨fun s n j hj written => ?_, fun s n written => ⟨?_, ?_⟩, fun s i hi written => ?_,
    fun s n j hj unwritten => ?_, fun s i hi unwritten => ?_⟩
  · rw [windowByte_reg s n hj, if_pos written, byteOf]
  · exact windowBytes_word fun k => windowByte_lo written
  · exact windowBytes_word fun k => windowByte_hi written
  · rw [windowByte_decBuf s hi, if_pos written]
  · rw [windowByte_reg s n hj, unwritten]
    rfl
  · rw [windowByte_decBuf s hi, unwritten]
    rfl

end Sys2Proof.Machine
end

section
/-!
PROOFS. What a read returns when no completion is about to write what it reads: the written bytes, the register as it is, or
the model fault UnwrittenRead, and no change of the state (20_memory R45, R48).
-/

namespace Sys2Proof.Machine

theorem readRow_written {kind : RowKind} {off : Offset} {n : Size} {s : State} {v : Word}
    (bytes : kind = .operands ∨ kind = .decBuf) (known : readsPendingResult kind off s = false)
    (value : windowBytes s off.toNat (sizeBytes n) = some v) : readRow kind off n s = .next (v, s) := by
  obtain rfl | rfl := bytes <;> simp [readRow, known, value]

theorem readRow_unwritten {kind : RowKind} {off : Offset} {n : Size} {s : State}
    (bytes : kind = .operands ∨ kind = .decBuf) (known : readsPendingResult kind off s = false)
    (unwritten : windowBytes s off.toNat (sizeBytes n) = none) : readRow kind off n s = .fault .unwrittenRead := by
  obtain rfl | rfl := bytes <;> simp [readRow, known, unwritten]

theorem readRow_status_idle (off : Offset) (n : Size) {s : State} (idle : s.busy = false) :
    readRow .status off n s = .next ((statusWord s).setWidth 64, s) := by
  simp [readRow, readsPendingResult_idle, idle]

/-- A read of written bytes on an idle unit returns them, least significant first (20_memory R43, R45). -/
theorem readWindow_written {off : Offset} {n : Size} {s : State} {v : Word}
    (legal : legalRow off n .read = some .operands ∨ legalRow off n .read = some .decBuf) (idle : s.busy = false)
    (written : ∀ k, k < sizeBytes n → windowByte s (off.toNat + k) = some (v.extractLsb' (8 * k) 8)) :
    readWindow off n s = .next (truncateTo n v, s) := by
  have value := windowBytes_of_written (sizeBytes n) written
  obtain legal | legal := legal <;> rw [readWindow_legal legal]
  · exact readRow_written (.inl rfl) (readsPendingResult_idle _ _ idle) value
  · exact readRow_written (.inr rfl) (readsPendingResult_idle _ _ idle) value

/-- A read of an unwritten byte on an idle unit is UnwrittenRead (20_memory R45, 10_state R31). -/
theorem readWindow_unwritten {off : Offset} {n : Size} {s : State}
    (legal : legalRow off n .read = some .operands ∨ legalRow off n .read = some .decBuf) (idle : s.busy = false)
    {k : Nat} (hk : k < sizeBytes n) (unwritten : windowByte s (off.toNat + k) = none) :
    readWindow off n s = .fault .unwrittenRead := by
  have value := windowBytes_of_unwritten unwritten (sizeBytes n) hk
  obtain legal | legal := legal <;> rw [readWindow_legal legal]
  · exact readRow_unwritten (.inl rfl) (readsPendingResult_idle _ _ idle) value
  · exact readRow_unwritten (.inr rfl) (readsPendingResult_idle _ _ idle) value

theorem hostRead_next {off : Offset} {n : Size} {s s' : State} {v : Word} (value : readWindow off n s = .next (v, s')) :
    hostRead off n s = .next (s'.answer (.data n v)) := by
  rw [hostRead, value]

theorem hostRead_fault {off : Offset} {n : Size} {s : State} {r : Fault} (fault : readWindow off n s = .fault r) :
    hostRead off n s = .fault r := by
  rw [hostRead, fault]

theorem windowBytes_congr {s t : State} (same : ∀ off, windowByte t off = windowByte s off) (off n : Nat) :
    windowBytes t off n = windowBytes s off n := by
  induction n with
  | zero => rfl
  | succ n ih => rw [windowBytes, windowBytes, ih, same]

/-- A read of neither a pending result nor STATUS does not look at BUSY: it returns what the idle unit's read returns, or
faults as it does, and changes nothing (20_memory R47, R48). -/
theorem readRow_exact {off : Offset} {n : Size} {kind : RowKind} {s : State} (legal : legalRow off n .read = some kind)
    (status : kind ≠ .status) (known : readsPendingResult kind off s = false) :
    (∃ v, readRow kind off n { s with busy := false } = .next (v, { s with busy := false })
        ∧ readRow kind off n s = .next (v, s))
      ∨ (readRow kind off n { s with busy := false } = .fault .unwrittenRead
        ∧ readRow kind off n s = .fault .unwrittenRead) := by
  have idle : readsPendingResult kind off { s with busy := false } = false := readsPendingResult_idle kind off rfl
  obtain bytes | rfl | word := legalRow_read_kind legal
  · have same : windowBytes { s with busy := false } off.toNat (sizeBytes n) = windowBytes s off.toNat (sizeBytes n) :=
      windowBytes_congr (s := s) (t := { s with busy := false }) (windowByte_congr rfl rfl rfl rfl) _ _
    cases value : windowBytes s off.toNat (sizeBytes n) with
    | none => exact .inr ⟨readRow_unwritten bytes idle (same.trans value), readRow_unwritten bytes known value⟩
    | some v => exact .inl ⟨v, readRow_written bytes idle (same.trans value), readRow_written bytes known value⟩
  · exact absurd rfl status
  · refine .inl ⟨(rowWord kind s).setWidth 64, ?_, readRow_word word known⟩
    rw [readRow_word word idle]
    obtain rfl | rfl | rfl := word <;> rfl

/-- A read of an idle unit changes nothing at all (20_memory R48). -/
theorem readWindow_idle_keeps {off : Offset} {n : Size} {s s' : State} {v : Word} (idle : s.busy = false)
    (h : readWindow off n s = .next (v, s')) : s' = s := by
  cases legal : legalRow off n .read with
  | none => simp [readWindow, legal] at h
  | some kind =>
    rw [readWindow_legal legal] at h
    by_cases status : kind = .status
    · subst status
      rw [readRow_status_idle off n idle] at h
      injection h with h
      exact (Prod.mk.inj h).2.symm
    · obtain ⟨v', -, value⟩ | ⟨-, fault⟩ := readRow_exact legal status (readsPendingResult_idle kind off idle)
      · injection value.symm.trans h with h
        exact (Prod.mk.inj h).2.symm
      · cases fault.symm.trans h

/-- Settles O44: a read draws at most a free value, an idle unit's none, and the window's bytes decide what it returns. -/
theorem readsHaveNoSideEffect : Obligations.ReadsHaveNoSideEffect := by
  refine ⟨fun off n s s' v h => ⟨?_, fun idle => readWindow_idle_keeps idle h⟩, fun off n s legal idle =>
    ⟨fun v written => readWindow_written legal idle written, ?_⟩⟩
  · obtain rfl | rfl := readWindow_keeps h <;> rfl
  · rintro ⟨k, hk, unwritten⟩
    have fault := readWindow_unwritten legal idle hk unwritten
    exact ⟨fault, hostRead_fault fault⟩

end Sys2Proof.Machine
end

section
/-!
PROOFS. Reads while a command is pending (20_memory R47): free values for what its completion will write and for C and V of
STATUS, everything else as with BUSY = 0.
-/

namespace Sys2Proof.Machine

theorem readsPendingResult_operands {s : State} {p : Pending} (busy : s.busy = true) (pending : s.pending = some p)
    (off : Offset) : readsPendingResult .operands off s = (p.op != .bin2dec && off.toNat / 16 == p.rd.val) := by
  simp [readsPendingResult, busy, pending]

theorem readsPendingResult_decimal {s : State} {p : Pending} {kind : RowKind} (busy : s.busy = true)
    (pending : s.pending = some p) (decimal : kind = .decBuf ∨ kind = .decLen) (off : Offset) :
    readsPendingResult kind off s = (p.op == .bin2dec) := by
  obtain rfl | rfl := decimal <;> simp [readsPendingResult, busy, pending]

/-- A read of a pending result is a free value, whatever its bytes hold and whether or not they are written. -/
theorem readWindow_pendingResult {off : Offset} {n : Size} {kind : RowKind} {s : State}
    (legal : legalRow off n .read = some kind) (free : readsPendingResult kind off s = true) :
    readWindow off n s = .next (truncateTo n (Config.freeRead s.draws), { s with draws := s.draws + 1 }) := by
  rw [readWindow_legal legal]
  unfold readRow
  rw [if_pos free]
  rfl

theorem readWindow_pending_operands {off : Offset} {n : Size} {s : State} {p : Pending} (busy : s.busy = true)
    (pending : s.pending = some p) (legal : legalRow off n .read = some .operands) (hasDestination : p.op ≠ .bin2dec)
    (destination : off.toNat / 16 = p.rd.val) :
    readWindow off n s = .next (truncateTo n (Config.freeRead s.draws), { s with draws := s.draws + 1 }) := by
  refine readWindow_pendingResult legal ?_
  simp [readsPendingResult_operands busy pending, hasDestination, destination]

theorem readWindow_pending_decimal {off : Offset} {n : Size} {s : State} {p : Pending} (busy : s.busy = true)
    (pending : s.pending = some p) (legal : legalRow off n .read = some .decBuf ∨ legalRow off n .read = some .decLen)
    (decimal : p.op = .bin2dec) :
    readWindow off n s = .next (truncateTo n (Config.freeRead s.draws), { s with draws := s.draws + 1 }) := by
  obtain legal | legal := legal <;> refine readWindow_pendingResult legal ?_
  · simp [readsPendingResult_decimal busy pending (.inl rfl), decimal]
  · simp [readsPendingResult_decimal busy pending (.inr rfl), decimal]

/-- STATUS as a whole is no pending result: only its C and V are (20_memory R47). -/
theorem readsPendingResult_status (off : Offset) (s : State) : readsPendingResult .status off s = false := by
  unfold readsPendingResult
  split <;> rfl

theorem readWindow_status_busy {s : State} (busy : s.busy = true) :
    readWindow 0x104#9 .b4 s = .next ((busyStatusWord s).setWidth 64, { s with draws := s.draws + 1 }) := by
  have known : ¬readsPendingResult .status 0x104#9 s = true := by simp [readsPendingResult_status]
  rw [readWindow_legal (kind := .status) (by decide)]
  unfold readRow
  rw [if_neg known]
  exact if_pos busy

/-- What a busy unit's STATUS shows: C and V are bits 2 and 3 of the draw (20_memory R47). -/
theorem busyStatusWord_layout {s : State} (busy : s.busy = true) :
    (busyStatusWord s).getLsbD 0 = true ∧ (busyStatusWord s).getLsbD 1 = s.halt
      ∧ (busyStatusWord s).getLsbD 2 = (Config.freeRead s.draws).getLsbD 2
      ∧ (busyStatusWord s).getLsbD 3 = (Config.freeRead s.draws).getLsbD 3
      ∧ (busyStatusWord s).extractLsb' 4 4 = s.cause ∧ (busyStatusWord s).extractLsb' 8 24 = 0#24 :=
  ⟨(statusWord_getLsbD _ 0).trans busy, statusWord_getLsbD _ 1, statusWord_getLsbD _ 2, statusWord_getLsbD _ 3,
    statusWord_cause _, statusWord_reserved _⟩

/-- A read of none of the bytes that the pending command writes reads no pending result. -/
theorem readsPendingResult_of_other {s : State} {p : Pending} {kind : RowKind} {off : Offset} (busy : s.busy = true)
    (pending : s.pending = some p) (other : kind = .operands → p.op = .bin2dec ∨ off.toNat / 16 ≠ p.rd.val)
    (text : kind = .decBuf ∨ kind = .decLen → p.op ≠ .bin2dec) : readsPendingResult kind off s = false := by
  cases kind with
  | operands =>
    rw [readsPendingResult_operands busy pending]
    obtain decimal | elsewhere := other rfl
    · simp [decimal]
    · simp [elsewhere]
  | decBuf => simpa [readsPendingResult_decimal busy pending (.inl rfl)] using text (.inl rfl)
  | decLen => simpa [readsPendingResult_decimal busy pending (.inr rfl)] using text (.inr rfl)
  | _ => simp [readsPendingResult, busy, pending]

/-- Settles O45: pending results, STATUS, and every other read, which does not look at BUSY. -/
theorem readsWhileBusyAreFreeDraws : Obligations.ReadsWhileBusyAreFreeDraws := by
  intro s p busy pending
  refine ⟨fun off n => readWindow_pending_operands busy pending, fun off n => readWindow_pending_decimal busy pending,
    ⟨busyStatusWord s, readWindow_status_busy busy, busyStatusWord_layout busy⟩, ?_⟩
  intro off n kind legal status other text
  have known := readsPendingResult_of_other busy pending other text
  rw [readWindow_legal legal, readWindow_legal legal]
  obtain ⟨v, idle, value⟩ | ⟨idle, fault⟩ := readRow_exact legal status known
  · rw [idle, value]
    exact ⟨fun v' s' h => by cases h; rfl, fun r h => (nomatch h)⟩
  · rw [idle, fault]
    exact ⟨fun v' s' h => (nomatch h), fun r h => by cases h; rfl⟩

end Sys2Proof.Machine
end

section
/-!
PROOFS. Operand-register writes on a unit neither halted nor busy (20_memory R45, R56): what they write, what they leave, and
that a read gives the bytes back. The two writes of `ldx` load a register, and the two reads of `rdx` return it (30_encoding R69).
-/

namespace Sys2Proof.Machine

theorem hostWrite_operands {s : State} {off : Offset} {n : Size} (ready : Ready s)
    (legal : legalRow off n .write = some .operands) (v : Word) :
    hostWrite off n v s = .next (storeBytes off.toNat v (sizeBytes n) (s.answer .ok)) := by
  obtain ⟨running, idle⟩ := ready
  simp [hostWrite, legal, writeOperands, running, idle]

/-- Settles O41, byte by byte. -/
theorem operandWriteFrame : Obligations.OperandWriteFrame := fun s off n v ready legal =>
  ⟨_, hostWrite_operands ready legal v,
    fun o => windowByte_storeBytes (s.answer .ok) off.toNat v (sizeBytes n) (legalRow_operands legal) o,
    storeBytes_keeps _ _ _ _⟩

theorem storeBytes_ready {s : State} (ready : Ready s) (off : Nat) (v : Word) (n : Nat) :
    Ready (storeBytes off v n s) := by
  rw [storeBytes_keeps]
  exact ready

/-- Settles O40: each byte that the read covers is the byte written. -/
theorem operandWriteReadsBack : Obligations.OperandWriteReadsBack := by
  intro s off n v ready legal
  refine ⟨_, hostWrite_operands ready legal v, readWindow_written (.inl ?_) ?_ fun k hk => ?_⟩
  · rwa [legalRow_operands_iff] at legal ⊢
  · rw [storeBytes_busy]
    exact ready.2
  · rw [windowByte_storeBytes _ _ _ _ (legalRow_operands legal), if_pos (by omega), Nat.add_sub_cancel_left]

/-- A write leaves the registers that it does not reach, written or not. -/
theorem storeBytes_other_reg (s : State) {off n : Nat} (v : Word) (fits : off + n ≤ 0x100) {q : Reg}
    (other : ∀ k, k < n → q.val ≠ (off + k) / 16) :
    (storeBytes off v n s).reg q = s.reg q ∧ (storeBytes off v n s).marks q = s.marks q := by
  induction n with
  | zero => exact ⟨rfl, rfl⟩
  | succ n ih =>
    have last : q.val ≠ (off + n) / 16 := other n (Nat.lt_succ_self n)
    have inside : off + n < 0x100 := by omega
    rw [storeBytes, reg_storeByte _ inside, marks_storeByte _ inside, if_neg last, if_neg last]
    exact ih (by omega) fun k hk => other k (by omega)

theorem regOffset_toNat (n : Reg) {j : Nat} (hj : j < 16) : (regOffset n j).toNat = 0x010 * n.val + j := by
  rw [regOffset, BitVec.toNat_ofNat]
  omega

/-- Both halves of a register are legal 8-byte accesses (20_memory R56). -/
theorem legalRow_half (n : Reg) {j : Nat} (half : j = 0 ∨ j = 8) (dir : Dir) :
    legalRow (regOffset n j) .b8 dir = some .operands := by
  rw [legalRow_operands_iff, regOffset_toNat n (by omega)]
  simp only [sizeBytes]
  omega

/-- The write of one half of a register by `ldx`. -/
theorem hostWrite_half {s : State} (ready : Ready s) (n : Reg) {j : Nat} (half : j = 0 ∨ j = 8) (w : Word) :
    hostWrite (regOffset n j) .b8 w s = .next (storeBytes (0x010 * n.val + j) w 8 (s.answer .ok)) := by
  rw [hostWrite_operands ready (legalRow_half n half .write), regOffset_toNat n (by omega)]
  rfl

/-- The read of one half of a register by `rdx`. -/
theorem hostRead_half {s : State} (idle : s.busy = false) (n : Reg) {j : Nat} (half : j = 0 ∨ j = 8) {w : Word}
    (written : ∀ k, k < 8 → windowByte s (0x010 * n.val + j + k) = some (w.extractLsb' (8 * k) 8)) :
    hostRead (regOffset n j) .b8 s = .next (s.answer (.data .b8 w)) := by
  have value : readWindow (regOffset n j) .b8 s = .next (truncateTo .b8 w, s) := by
    refine readWindow_written (.inl (legalRow_half n half .read)) idle ?_
    rwa [regOffset_toNat n (by omega)]
  have whole : truncateTo .b8 w = w := by simp [truncateTo, sizeBytes]
  rw [hostRead_next value, whole]

/-- Sixteen written bytes that are the bytes of a value make the register hold it. -/
theorem reg_of_windowByte {s : State} {n : Reg} {v : U128}
    (bytes : ∀ j, j < 16 → windowByte s (0x010 * n.val + j) = some (byteOf v j)) : s.reg n = v ∧ FullyWritten n s := by
  have byte : ∀ j, j < 16 → (s.marks n).getLsbD j = true ∧ byteOf (s.reg n) j = byteOf v j := fun j hj => by
    simpa [windowByte_reg s n hj] using bytes j hj
  exact ⟨eq_of_byteOf_eq fun j hj => (byte j hj).2, fun j hj => (byte j hj).1⟩

/-- The state after the two writes of `ldx Xn, v`. -/
def loadedBy (n : Reg) (v : U128) (s : State) : State :=
  storeBytes (0x010 * n.val + 8) (hi v) 8 ((storeBytes (0x010 * n.val) (lo v) 8 (s.answer .ok)).answer .ok)

theorem windowByte_answer (s : State) (a : Answer) (off : Nat) : windowByte (s.answer a) off = windowByte s off :=
  windowByte_congr rfl rfl rfl rfl off

theorem windowByte_loadedBy (s : State) (n : Reg) (v : U128) {j : Nat} (hj : j < 16) :
    windowByte (loadedBy n v s) (0x010 * n.val + j) = some (byteOf v j) := by
  rw [loadedBy, windowByte_storeBytes _ _ _ _ (by omega), windowByte_answer, windowByte_storeBytes _ _ _ _ (by omega)]
  by_cases low : j < 8
  · rw [if_neg (by omega), if_pos (by omega), byteOf_lo v low, Nat.add_sub_cancel_left]
  · obtain ⟨k, rfl⟩ := Nat.exists_eq_add_of_le (Nat.not_lt.mp low)
    rw [if_pos (by omega), byteOf_hi v (by omega), ← Nat.add_assoc, Nat.add_sub_cancel_left]

theorem loadedBy_other (s : State) {n q : Reg} (v : U128) (other : q ≠ n) :
    (loadedBy n v s).reg q = s.reg q ∧ (loadedBy n v s).marks q = s.marks q := by
  have apart : q.val ≠ n.val := fun e => other (Fin.ext e)
  obtain ⟨highReg, highMarks⟩ := storeBytes_other_reg
    ((storeBytes (0x010 * n.val) (lo v) 8 (s.answer .ok)).answer .ok) (off := 0x010 * n.val + 8) (n := 8) (hi v)
    (by omega) (q := q) (by omega)
  obtain ⟨lowReg, lowMarks⟩ := storeBytes_other_reg (s.answer .ok) (off := 0x010 * n.val) (n := 8) (lo v)
    (by omega) (q := q) (by omega)
  exact ⟨highReg.trans lowReg, highMarks.trans lowMarks⟩

/-- The two reads of `rdx Xn` on an idle unit answer the two words of a written register, low word first. -/
theorem rdx_reads {s : State} {n : Reg} (idle : s.busy = false) (written : FullyWritten n s) :
    ∃ p q, hostRead (regOffset n 0) .b8 s = .next p ∧ hostRead (regOffset n 8) .b8 p = .next q
      ∧ rdxValue q.answers = some (s.reg n) := by
  refine ⟨_, _, hostRead_half idle n (.inl rfl) fun k => windowByte_lo written,
    hostRead_half (s := s.answer (.data .b8 (lo (s.reg n)))) idle n (.inr rfl) fun k => windowByte_hi written, ?_⟩
  rw [answer_answers, answer_answers, rdxValue_two_reads]
  exact congrArg some (join_hi_lo (s.reg n))

/-- Settles O42: the two stores give the register its sixteen bytes, and `rdx` reads its two words. -/
theorem twoWritesLoadARegister : Obligations.TwoWritesLoadARegister := by
  intro s n v ready
  obtain ⟨value, written⟩ := reg_of_windowByte (n := n) (fun j => windowByte_loadedBy s n v (j := j))
  have afterLow : Ready (storeBytes (0x010 * n.val) (lo v) 8 (s.answer .ok)) :=
    storeBytes_ready (s := s.answer .ok) ready _ _ _
  have idle : (loadedBy n v s).busy = false := (storeBytes_ready (s := State.answer _ .ok) afterLow _ _ _).2
  refine ⟨_, loadedBy n v s, hostWrite_half ready n (.inl rfl) (lo v), hostWrite_half afterLow n (.inr rfl) (hi v),
    value, written, fun q other => loadedBy_other s v other, ?_⟩
  simpa [value] using rdx_reads idle written

end Sys2Proof.Machine
end

section
/-!
PROOFS. The decoder and the encoder (30_encoding R60 to R66): each undoes the other, the words the decoder refuses are those
of R65's list, and a command takes four bytes.
-/

namespace Sys2Proof

/-- Every field of a packed word reads back as it was put in, so the decoder's tests are on the opcode of the command's row
and, where the form does not use a field, on the 0 packed there. -/
theorem decode_encode (i : Instr) : decode (encode i) = .ok i := by
  cases i with
  | _ =>
    simp only [encode, decode, packFields_resv, packFields_op, regField_packFields_8, regField_packFields_12,
      regField_packFields_16]
    rfl

/-- One step down the decoder's chain: a row whose opcode `w` has is the packed word of `w`'s own fields. -/
theorem encode_of_opcode_test {w : Word32} {op : Byte} {row i : Instr} {x : Except DecodeError Instr}
    (reserved : w.extractLsb' 20 12 = 0#12)
    (packed : encode row = packFields op (regField w 8) (regField w 12) (regField w 16))
    (h : (if w.extractLsb' 0 8 = op then .ok row else x) = .ok i) (later : x = .ok i → encode i = w) : encode i = w := by
  obtain ⟨opcode, h⟩ | ⟨-, h⟩ := ite_cases (P := (· = Except.ok i)) h
  · injection h with h
    rw [← h, packed, ← opcode, packFields_of_fields w reserved]
  · exact later h

/-- As `encode_of_opcode_test`, for a row that also tests the fields which its form does not use. -/
theorem encode_of_unused_test {w : Word32} {op : Byte} {unused : Prop} [Decidable unused] {row i : Instr}
    {x : Except DecodeError Instr} (reserved : w.extractLsb' 20 12 = 0#12)
    (packed : unused → encode row = packFields op (regField w 8) (regField w 12) (regField w 16))
    (h : (if w.extractLsb' 0 8 = op then if unused then .ok row else .error .unusedField else x) = .ok i)
    (later : x = .ok i → encode i = w) : encode i = w := by
  by_cases zero : unused
  · rw [if_pos zero] at h
    exact encode_of_opcode_test reserved (packed zero) h later
  · obtain ⟨-, h⟩ | ⟨-, h⟩ := ite_cases (P := (· = Except.ok i)) h
    · rw [if_neg zero] at h
      cases h
    · exact later h

/-- Down the decoder's chain, row by row. -/
theorem encode_of_decode {w : Word32} {i : Instr} (h : decode w = .ok i) : encode i = w := by
  obtain ⟨-, h⟩ | ⟨reserved, h⟩ := ite_cases (P := (· = Except.ok i)) h
  · cases h
  rw [not_not] at reserved
  refine encode_of_opcode_test (row := .add _ _ _) reserved rfl h fun h => ?_
  refine encode_of_opcode_test (row := .sub _ _ _) reserved rfl h fun h => ?_
  refine encode_of_opcode_test (row := .mul _ _ _) reserved rfl h fun h => ?_
  refine encode_of_opcode_test (row := .add64 _ _ _) reserved rfl h fun h => ?_
  refine encode_of_opcode_test (row := .sub64 _ _ _) reserved rfl h fun h => ?_
  refine encode_of_opcode_test (row := .mul64 _ _ _) reserved rfl h fun h => ?_
  refine encode_of_opcode_test (row := .div _ _ _) reserved rfl h fun h => ?_
  refine encode_of_opcode_test (row := .mod _ _ _) reserved rfl h fun h => ?_
  refine encode_of_opcode_test (row := .div64 _ _ _) reserved rfl h fun h => ?_
  refine encode_of_opcode_test (row := .mod64 _ _ _) reserved rfl h fun h => ?_
  refine encode_of_unused_test (row := .lzc _ _) reserved (fun rs2 => ?_) h fun h => ?_
  · rw [rs2]
    rfl
  refine encode_of_unused_test (row := .bin2dec _) reserved (fun ⟨rd, rs2⟩ => ?_) h nofun
  rw [rd, rs2]
  rfl

theorem illegalWord_encode (i : Instr) : illegalWord (encode i) = false := by
  cases i with
  | add rd rs1 rs2 => exact Laws.EncodesLegal.add rd rs1 rs2
  | sub rd rs1 rs2 => exact Laws.EncodesLegal.sub rd rs1 rs2
  | mul rd rs1 rs2 => exact Laws.EncodesLegal.mul rd rs1 rs2
  | add64 rd rs1 rs2 => exact Laws.EncodesLegal.add64 rd rs1 rs2
  | sub64 rd rs1 rs2 => exact Laws.EncodesLegal.sub64 rd rs1 rs2
  | mul64 rd rs1 rs2 => exact Laws.EncodesLegal.mul64 rd rs1 rs2
  | div rd rs1 rs2 => exact Laws.EncodesLegal.div rd rs1 rs2
  | mod rd rs1 rs2 => exact Laws.EncodesLegal.mod rd rs1 rs2
  | div64 rd rs1 rs2 => exact Laws.EncodesLegal.div64 rd rs1 rs2
  | mod64 rd rs1 rs2 => exact Laws.EncodesLegal.mod64 rd rs1 rs2
  | lzc rd rs1 => exact Laws.EncodesLegal.lzc rd rs1
  | bin2dec rs1 => exact Laws.EncodesLegal.bin2dec rs1

/-- R65's list and the decoder, which is written from R64, agree: a word that decodes is an encoding, and those are legal. -/
theorem illegalWord_iff (w : Word32) : illegalWord w = true ↔ ∃ e, decode w = .error e := by
  refine ⟨fun illegal => ?_, fun ⟨e, h⟩ => illegalWord_of_decode_error h⟩
  cases h : decode w with
  | error e => exact ⟨e, rfl⟩
  | ok i =>
    rw [← encode_of_decode h, illegalWord_encode] at illegal
    cases illegal

/-- The bytes of a word are decoded as that word, and what follows them is left (30_encoding R66). -/
theorem decodeBytes_bytesOfWord (w : Word32) (rest : List Byte) :
    decodeBytes (bytesOfWord w ++ rest) = (decode w).map fun i => (i, rest) := by
  simp only [bytesOfWord, List.cons_append, List.nil_append, decodeBytes, wordOfBytes_bytesOfWord]
  cases decode w <;> rfl

theorem decodeBytes_of_length_lt {bytes : List Byte} (short : bytes.length < 4) : decodeBytes bytes = .error .truncated := by
  match bytes with
  | [] | [_] | [_, _] | [_, _, _] => rfl
  | _ :: _ :: _ :: _ :: _ =>
    simp only [List.length_cons] at short
    omega

end Sys2Proof

namespace Sys2Proof.Machine

/-- Settles O1. -/
theorem decodeOfEncode : Obligations.DecodeOfEncode := decode_encode

/-- Settles O2. -/
theorem encodeOfDecode : Obligations.EncodeOfDecode := fun _ _ => encode_of_decode

theorem cmdWrite_legal {w : Word32} {i : Instr} (decoded : decode w = .ok i) (s : State) : cmdWrite w s = exec i s := by
  rw [cmdWrite, decoded]

theorem cmdWrite_illegal {w : Word32} {s : State} (illegal : illegalWord w = true) (ready : Ready s) :
    cmdWrite w s = .next (withFault 2#4 w s) := by
  obtain ⟨e, refused⟩ := (illegalWord_iff w).mp illegal
  rw [cmdWrite, refused]
  simp only [whenReady_ready ready, recordFault_running _ _ ready.1, causeCode]

/-- Settles O3. -/
theorem illegalWordsRaiseIllegalCommand : Obligations.IllegalWordsRaiseIllegalCommand :=
  ⟨illegalWord_iff, fun _ _ => cmdWrite_illegal, by decide⟩

/-- Settles O5. -/
theorem decoderTakesExactlyOneWord : Obligations.DecoderTakesExactlyOneWord := by
  refine ⟨fun w rest i => ?_, fun _ => decodeBytes_of_length_lt⟩
  rw [decodeBytes_bytesOfWord]
  cases decode w <;> simp [Except.map]

end Sys2Proof.Machine
end

section
/-!
PROOFS. What the host's line does in a step (30_encoding R69, 20_memory R43 to R46): the step performs it, and no line is
refused, because no submitted command is (30_encoding R64, 60_exceptions R145).
-/

namespace Sys2Proof.Machine

theorem hostStep_line {s : State} {line : HostLine} {rest : List HostLine} (host : s.host = line :: rest) :
    hostStep s = performLine line { s with host := rest } := by
  rw [hostStep, host]

/-- The host moves when its turn is listed, or when none is and the unit is idle. -/
theorem step_host_turn {s : State} {ts : List Turn}
    (turn : s.turns = .host :: ts ∨ s.turns = [] ∧ s.busy = false ∧ ts = []) : step s = hostStep { s with turns := ts } := by
  obtain listed | ⟨none_listed, idle, rfl⟩ := turn
  · exact step_listed_turn listed
  · have same : { s with turns := [] } = s := by rw [← none_listed]
    rw [same, step_no_turn none_listed, idle]
    rfl

theorem step_host_line {s : State} {ts : List Turn} {line : HostLine} {rest : List HostLine}
    (turn : s.turns = .host :: ts ∨ s.turns = [] ∧ s.busy = false ∧ ts = []) (host : s.host = line :: rest) :
    step s = performLine line { s with turns := ts, host := rest } := by
  rw [step_host_turn turn]
  exact hostStep_line (s := { s with turns := ts }) host

theorem hostWrite_cmd (v : Word) (s : State) : hostWrite 0x100#9 .b4 v s = cmdWrite (v.setWidth 32) (s.answer .ok) := by
  have legal : legalRow 0x100#9 .b4 .write = some .cmd := by decide
  rw [hostWrite, legal]

theorem hostWrite_operands_eq {off : Offset} {n : Size} (legal : legalRow off n .write = some .operands) (v : Word)
    (s : State) : hostWrite off n v s = .next (writeOperands off n v (s.answer .ok)) := by
  rw [hostWrite, legal]

/-- Settles O6, by what the host's turn performs. -/
theorem stepRunsTheSubmittedCommand : Obligations.StepRunsTheSubmittedCommand := by
  refine ⟨fun s ts rest turn => ⟨fun v i host decoded => ?_, fun off n v => step_host_line turn,
    fun off n => step_host_line turn, step_host_line turn, step_host_line turn⟩, hostWrite_cmd,
    fun off n v s legal => hostWrite_operands_eq legal v s, fun off n v s s' => hostRead_next, fun off n s r => hostRead_fault⟩
  rw [step_host_line turn host, performLine, hostWrite_cmd, cmdWrite_legal decoded]
  rfl

/-! ### No refusal -/

theorem whenReady_ne_refused {s : State} {k : Host.Outcome State Fault Refusal} {r : Refusal} (hk : k ≠ .refused r) :
    whenReady s k ≠ .refused r := by
  unfold whenReady
  split
  · nofun
  split
  · nofun
  · exact hk

theorem acceptWith_ne_refused (op : Op) (rd : Reg) (a b : Option U128) (s : State) (r : Refusal) :
    acceptWith op rd a b s ≠ .refused r := by
  unfold acceptWith
  split <;> nofun

theorem acceptDivision_ne_refused (op : Op) (w : Word32) (rd : Reg) (a b : Option U128) (s : State) (r : Refusal) :
    acceptDivision op w rd a b s ≠ .refused r := by
  unfold acceptDivision
  split
  · split <;> nofun
  · nofun

/-- Every command has a meaning: it is the submission of one of the operand forms (30_encoding R62, R64). -/
theorem exec_ne_refused (i : Instr) (s : State) (r : Refusal) : exec i s ≠ .refused r := by
  cases i with
  | div | mod | div64 | mod64 => exact whenReady_ne_refused (acceptDivision_ne_refused _ _ _ _ _ _ _)
  | _ => exact whenReady_ne_refused (acceptWith_ne_refused _ _ _ _ _ _)

theorem cmdWrite_ne_refused (w : Word32) (s : State) (r : Refusal) : cmdWrite w s ≠ .refused r := by
  unfold cmdWrite
  split
  · exact exec_ne_refused _ s r
  · exact whenReady_ne_refused nofun

theorem hostWrite_ne_refused (off : Offset) (n : Size) (v : Word) (s : State) (r : Refusal) :
    hostWrite off n v s ≠ .refused r := by
  unfold hostWrite
  split
  · exact cmdWrite_ne_refused _ _ r
  · nofun
  · nofun

theorem hostRead_ne_refused (off : Offset) (n : Size) (s : State) (r : Refusal) : hostRead off n s ≠ .refused r := by
  unfold hostRead
  split
  · nofun
  · nofun
  · next refused => exact absurd refused (readWindow_not_refused off n s _)

/-- The STATUS read of `wait` always answers; its bit 0 is BUSY, and it leaves the host's lines. -/
theorem readWindow_status (s : State) :
    ∃ v s', readWindow 0x104#9 .b4 s = .next (v, s') ∧ v.getLsbD 0 = s.busy ∧ s'.host = s.host := by
  have bit : ∀ w : Word32, (w.setWidth 64).getLsbD 0 = w.getLsbD 0 := fun w => by simp
  obtain busy | idle := Bool.eq_false_or_eq_true s.busy
  · exact ⟨_, _, readWindow_status_busy busy, by rw [bit, (busyStatusWord_layout busy).1, busy], rfl⟩
  · exact ⟨_, _, readWindow_status_idle idle, by rw [bit, (statusWord_layout idle).1, idle], rfl⟩

/-- A turn of `wait` answers, and the line stays while BUSY = 1 (30_encoding R69). -/
theorem hostWait_next (s : State) : ∃ t, hostWait s = .next t ∧ t.host = if s.busy then .wait :: s.host else s.host := by
  obtain ⟨v, s', read, bit, host⟩ := readWindow_status s
  simp only [hostWait, read, bit]
  refine ⟨_, rfl, ?_⟩
  split <;> simp [host]

/-- Settles O48. -/
theorem waitHoldsWhileBusy : Obligations.WaitHoldsWhileBusy := hostWait_next

theorem performLine_ne_refused (line : HostLine) (s : State) (r : Refusal) : performLine line s ≠ .refused r := by
  cases line with
  | write off n v => exact hostWrite_ne_refused off n v s r
  | read off n => exact hostRead_ne_refused off n s r
  | wait =>
    obtain ⟨t, answered, -⟩ := hostWait_next s
    rw [performLine, answered]
    nofun
  | reset => nofun

theorem hostStep_ne_refused (s : State) (r : Refusal) : hostStep s ≠ .refused r := by
  unfold hostStep
  split
  · nofun
  · exact performLine_ne_refused _ _ r

/-- Settles O38: the unit's turn is a next state, and no line of the host is refused. -/
theorem noStepIsRefused : Obligations.NoStepIsRefused := by
  intro s r
  unfold step
  cases (takeTurn s).1 with
  | unit => nofun
  | host => exact hostStep_ne_refused _ r

end Sys2Proof.Machine
end

section
/-!
PROOFS. The operand bytes that a command needs (30_encoding R63): it stops exactly when one of them is unwritten, because
each operand of its form has a value exactly when the bytes of that operand are written.
-/

namespace Sys2Proof.Machine

theorem fullOperand_isSome_iff (r : Reg) (s : State) : (fullOperand r s).isSome ↔ FullyWritten r s := by
  by_cases written : FullyWritten r s
  · simp [fullOperand_written written, written]
  · simp [fullOperand_unwritten written, written]

theorem mixedOperand_isSome_iff (r : Reg) (s : State) : (mixedOperand r s).isSome ↔ LowWritten r s := by
  by_cases written : LowWritten r s
  · simp [mixedOperand_written written, written]
  · simp [mixedOperand_unwritten written, written]

/-- The accept step stops exactly when one of its operands has no value. -/
theorem acceptWith_fault_iff (op : Op) (rd : Reg) (a b : Option U128) (s : State) :
    acceptWith op rd a b s = .fault .unwrittenRead ↔ ¬(a.isSome ∧ b.isSome) := by
  cases a <;> cases b <;> simp [acceptWith]

theorem acceptDivision_fault_iff (op : Op) (w : Word32) (rd : Reg) (a b : Option U128) (s : State) :
    acceptDivision op w rd a b s = .fault .unwrittenRead ↔ ¬(a.isSome ∧ b.isSome) := by
  cases a with
  | none => simp [acceptDivision]
  | some a =>
    cases b with
    | none => simp [acceptDivision]
    | some b =>
      simp only [acceptDivision]
      split <;> simp

theorem operandsWritten_full {i : Instr} {r : Reg} (full : sourceTwoFull i = some r) (low : sourceTwoLow i = none)
    (s : State) :
    OperandsWritten i s ↔ (fullOperand (sourceOne i) s).isSome ∧ (fullOperand r s).isSome := by
  simp [OperandsWritten, full, low, fullOperand_isSome_iff]

theorem operandsWritten_mixed {i : Instr} {r : Reg} (full : sourceTwoFull i = none) (low : sourceTwoLow i = some r)
    (s : State) :
    OperandsWritten i s ↔ (fullOperand (sourceOne i) s).isSome ∧ (mixedOperand r s).isSome := by
  simp [OperandsWritten, full, low, fullOperand_isSome_iff, mixedOperand_isSome_iff]

theorem operandsWritten_unary {i : Instr} (full : sourceTwoFull i = none) (low : sourceTwoLow i = none) (s : State) :
    OperandsWritten i s ↔ (fullOperand (sourceOne i) s).isSome ∧ (some 0#128).isSome := by
  simp [OperandsWritten, full, low, fullOperand_isSome_iff]

/-- Past the first two checks, a submission whose operands have values exactly when `written` holds stops exactly when it
does not. -/
theorem submit_fault_iff {op : Op} {rd : Reg} {a b : Option U128} {s : State} {written : Prop} (ready : Ready s)
    (h : written ↔ a.isSome ∧ b.isSome) :
    whenReady s (acceptWith op rd a b s) = .fault .unwrittenRead ↔ ¬written := by
  rw [whenReady_ready ready, acceptWith_fault_iff, h]

theorem submitDivision_fault_iff {op : Op} {w : Word32} {rd : Reg} {a b : Option U128} {s : State} {written : Prop}
    (ready : Ready s) (h : written ↔ a.isSome ∧ b.isSome) :
    whenReady s (acceptDivision op w rd a b s) = .fault .unwrittenRead ↔ ¬written := by
  rw [whenReady_ready ready, acceptDivision_fault_iff, h]

/-- Settles O21, by the operand form of each command. -/
theorem unwrittenOperandBytesStopACommand : Obligations.UnwrittenOperandBytesStopACommand := by
  intro i s ready
  cases i with
  | add | sub | mul => exact submit_fault_iff ready (operandsWritten_full rfl rfl s)
  | add64 | sub64 | mul64 => exact submit_fault_iff ready (operandsWritten_mixed rfl rfl s)
  | div | mod => exact submitDivision_fault_iff ready (operandsWritten_full rfl rfl s)
  | div64 | mod64 => exact submitDivision_fault_iff ready (operandsWritten_mixed rfl rfl s)
  | lzc | bin2dec => exact submit_fault_iff ready (operandsWritten_unary rfl rfl s)

/-- Settles O31, by what a submission can answer. -/
theorem submissionFrame : Obligations.SubmissionFrame := by
  intro i s t h
  obtain ⟨-, rfl⟩ | ⟨-, -, rfl⟩ | ⟨-, -, rfl⟩ | ⟨-, op, rd, a, b, -, rfl⟩ := exec_next h
  · exact ⟨rfl, fun _ => rfl⟩
  · exact ⟨rfl, windowByte_congr rfl rfl rfl rfl⟩
  · exact ⟨rfl, windowByte_congr rfl rfl rfl rfl⟩
  · exact ⟨rfl, windowByte_congr rfl rfl rfl rfl⟩

end Sys2Proof.Machine
end

section
/-!
PROOFS. The completion of a pending command (30_encoding R71, R72, R74): what it writes is fixed by the latch, what it leaves
unchanged, and that nothing but completion and reset empties the latch.
-/

namespace Sys2Proof.Machine

/-- A completion with a destination writes one result and two flags that the latch alone decides (30_encoding R74). -/
theorem complete_result {p : Pending} (h : p.op ≠ .bin2dec) :
    ∃ w c v, ∀ s, complete p s = withResult p.rd w c v s := by
  obtain ⟨op, rd, a, b⟩ := p
  cases op with
  | bin2dec => exact absurd rfl h
  | _ => exact ⟨_, _, _, fun _ => rfl⟩

theorem complete_bin2dec {p : Pending} (h : p.op = .bin2dec) (s : State) : complete p s = completeBin2dec p.a s := by
  rw [complete, h]

@[simp] theorem reg_withResult_same (rd : Reg) (w : U128) (c v : Bool) (s : State) :
    (withResult rd w c v s).reg rd = w :=
  reg_setReg_same s rd w

/-- Settles O30. -/
theorem completionIsFixedByTheLatch : Obligations.CompletionIsFixedByTheLatch := by
  intro p s s'
  by_cases decimal : p.op = .bin2dec
  · rw [complete_bin2dec decimal, complete_bin2dec decimal]
    exact ⟨rfl, rfl, fun h => absurd decimal h, fun _ => ⟨rfl, rfl⟩⟩
  · obtain ⟨w, c, v, result⟩ := complete_result decimal
    rw [result, result]
    refine ⟨rfl, rfl, fun _ => ?_, fun h => absurd h decimal⟩
    rw [reg_withResult_same, reg_withResult_same]

/-! ### The frame of a result -/

/-- A byte of the window above the operand registers depends on DECBUF and its marks alone. -/
theorem windowByte_congr_of_ge {s t : State} (buf : t.decBuf = s.decBuf) (marks : t.decMarks = s.decMarks) {off : Nat}
    (above : 0x100 ≤ off) : windowByte t off = windowByte s off := by
  have outside : ¬off < 0x100 := by omega
  simp only [windowByte, outside, dite_false, buf, marks]

theorem withResult_other (rd : Reg) (w : U128) (c v : Bool) (s : State) {q : Reg} (other : q ≠ rd) :
    (withResult rd w c v s).reg q = s.reg q ∧ (withResult rd w c v s).marks q = s.marks q :=
  ⟨reg_setReg_other s w other, marks_setReg_other s w other⟩

theorem windowByte_withResult_of_outside (rd : Reg) (w : U128) (c v : Bool) (s : State) {off : Nat}
    (outside : ¬(0x010 * rd.val ≤ off ∧ off < 0x010 * rd.val + 16)) :
    windowByte (withResult rd w c v s) off = windowByte s off := by
  by_cases operand : off < 0x100
  · obtain ⟨q, j, hj, rfl⟩ : ∃ (q : Reg) (j : Nat), j < 16 ∧ off = 0x010 * q.val + j :=
      ⟨⟨off / 16, by omega⟩, off % 16, by omega, (Nat.div_add_mod off 16).symm⟩
    have other : q ≠ rd := by
      rintro rfl
      omega
    obtain ⟨value, marks⟩ := withResult_other rd w c v s other
    rw [windowByte_reg _ _ hj, windowByte_reg _ _ hj, value, marks]
  · exact windowByte_congr_of_ge (s := s) (t := withResult rd w c v s) rfl rfl (Nat.not_lt.mp operand)

theorem fullyWritten_withResult (rd : Reg) (w : U128) (c v : Bool) (s : State) :
    FullyWritten rd (withResult rd w c v s) :=
  (fullyWritten_iff rd _).mpr (marks_setReg_same s rd w)

/-- Settles O32: the completion is the result in `X[rd]` with its flags. -/
theorem resultCompletionFrame : Obligations.ResultCompletionFrame := by
  intro p s destination
  obtain ⟨w, c, v, result⟩ := complete_result destination
  rw [result]
  exact ⟨fun _ => withResult_other p.rd w c v s, fun _ => windowByte_withResult_of_outside p.rd w c v s,
    fullyWritten_withResult p.rd w c v s, rfl⟩

/-! ### The pending command -/

theorem complete_turns (p : Pending) (s : State) (turns : List Turn) :
    complete p { s with turns := turns } = { complete p s with turns := turns } := by
  unfold complete
  split <;> rfl

/-- A change that leaves a busy unit busy leaves its pending command: it takes no other and stores no operand byte. -/
theorem UnitChange.keeps_pending {s t : State} (change : UnitChange s t) (busy : s.busy = true) (still : t.busy = true) :
    t.pending = s.pending := by
  have not_ready : ¬Ready s := fun ready => absurd (ready.2.symm.trans busy) (by decide)
  cases change with
  | same h => exact h.pending_eq
  | fault code info _ _ h => exact h.pending_eq
  | accepted op rd a b ready _ h => exact absurd ready not_ready
  | stored off v n ready _ h => exact absurd ready not_ready
  | completed p _ _ h => simp [h.busy_eq] at still
  | reset h => simp [h.busy_eq, State.reset] at still

/-- A line of the host leaves a pending command, or it is the reset line (60_exceptions R142, 70_reset R170). -/
theorem performLine_keeps_pending {line : HostLine} {s t : State} (h : performLine line s = .next t)
    (busy : s.busy = true) :
    (t.busy = true ∧ t.pending = s.pending) ∨ (line = .reset ∧ t.pending = none ∧ t.busy = false) := by
  obtain ⟨-, -, same⟩ | ⟨⟨-, -, still⟩, -⟩ | ⟨reset, rfl⟩ := performLine_flags h
  · have still := same.trans busy
    exact .inl ⟨still, (performLine_change h).keeps_pending busy still⟩
  · exact .inl ⟨still, (performLine_change h).keeps_pending busy still⟩
  · exact .inr ⟨reset, rfl, rfl⟩

/-- Settles O28, by the agent that moves. -/
theorem pendingCommandIsNeverCancelled : Obligations.PendingCommandIsNeverCancelled := by
  intro s t p h busy pending
  obtain ⟨turns, ⟨-, rfl⟩ | ⟨-, -, rfl⟩ | ⟨-, line, rest, host, performed⟩⟩ := step_cases h
  · rw [unitStep_pending (s := { s with turns := turns }) busy pending, complete_turns]
    exact .inr (.inl rfl)
  · exact .inl ⟨busy, pending⟩
  · obtain ⟨still, kept⟩ | ⟨rfl, cleared⟩ := performLine_keeps_pending performed busy
    · exact .inl ⟨still, kept.trans pending⟩
    · exact .inr (.inr ⟨⟨rest, host⟩, cleared⟩)

end Sys2Proof.Machine
end

section
/-!
PROOFS. The leading-zero count (41_leading_zeros R80, R81): the count of a word and the bit length of its value add up to 64,
those of a 128-bit value to 128, and LZC writes that count.
-/

namespace Sys2Proof.Machine

@[simp] theorem bitLength_zero : bitLength 0 = 0 := rfl

@[simp] theorem bitLength_one : bitLength 1 = 1 := by decide

theorem bitLength_of_ne_zero {n : Nat} (nonzero : n ≠ 0) : bitLength n = n.log2 + 1 := if_neg nonzero

/-- Appending `k` bits `m` below a number that is not zero makes it `k` bits longer. -/
theorem bitLength_mul_two_pow_add {n m k : Nat} (nonzero : n ≠ 0) (hm : m < 2 ^ k) :
    bitLength (n * 2 ^ k + m) = bitLength n + k := by
  have appended : n * 2 ^ k + m ≠ 0 := by positivity
  have log : (n * 2 ^ k + m).log2 = n.log2 + k := by
    rw [Nat.log2_eq_iff appended, show n.log2 + k + 1 = n.log2 + 1 + k by omega, pow_add, pow_add]
    constructor
    · calc 2 ^ n.log2 * 2 ^ k ≤ n * 2 ^ k := Nat.mul_le_mul_right _ (Nat.log2_self_le nonzero)
        _ ≤ n * 2 ^ k + m := Nat.le_add_right _ _
    · calc n * 2 ^ k + m < (n + 1) * 2 ^ k := by rw [Nat.succ_mul]; omega
        _ ≤ 2 ^ (n.log2 + 1) * 2 ^ k := Nat.mul_le_mul_right _ Nat.lt_log2_self
  rw [bitLength_of_ne_zero appended, bitLength_of_ne_zero nonzero, log]
  omega

/-- Over the low `k` bits: a set bit `k` ends the count and gives the length, a clear one counts and leaves the length. -/
theorem leadingZerosBelow_add_bitLength (w : Word) (k : Nat) :
    leadingZerosBelow w k + bitLength (w.toNat % 2 ^ k) = k := by
  induction k with
  | zero => simp [leadingZerosBelow, Nat.mod_one]
  | succ k ih =>
    have low : w.toNat % 2 ^ k < 2 ^ k := Nat.mod_lt _ (by positivity)
    rw [leadingZerosBelow, Nat.mod_pow_succ, ← Nat.toNat_testBit, BitVec.testBit_toNat]
    cases w.getLsbD k with
    | true =>
      have length := bitLength_mul_two_pow_add one_ne_zero low
      rw [one_mul, add_comm (2 ^ k)] at length
      simp only [Bool.toNat_true, mul_one, if_true]
      rw [zero_add, length, bitLength_one, add_comm]
    | false =>
      simp only [Bool.toNat_false, mul_zero, add_zero, Bool.false_eq_true, if_false]
      omega

theorem lzc64_add_bitLength (w : Word) : lzc64 w + bitLength w.toNat = 64 := by
  have h := leadingZerosBelow_add_bitLength w 64
  rwa [Nat.mod_eq_of_lt w.isLt] at h

/-- The high word decides unless it is 0, and then the low word does (41_leading_zeros R80). -/
theorem leadingZeros_add_bitLength (x : U128) : leadingZeros x + bitLength x.toNat = 128 := by
  unfold leadingZeros
  split_ifs with zero high
  · simp [val_eq x, zero.1, zero.2]
  · have nonzero : (hi x).toNat ≠ 0 := fun h => high (BitVec.eq_of_toNat_eq h)
    have count := lzc64_add_bitLength (hi x)
    rw [val_eq x, bitLength_mul_two_pow_add nonzero (lo x).isLt]
    omega
  · have count := lzc64_add_bitLength (lo x)
    have value : x.toNat = (lo x).toNat := by simp [val_eq x, not_not.mp high]
    rw [value]
    omega

/-- Settles O56: the count and the bit length add up to 128. -/
theorem leadingZerosIsTheBitLength : Obligations.LeadingZerosIsTheBitLength := by
  intro x
  have sum := leadingZeros_add_bitLength x
  refine ⟨by omega, by omega, by omega, ?_⟩
  rintro rfl
  rfl

/-! ### The command -/

/-- On a ready unit a submission whose operands have values is accepted with them (30_encoding R70). -/
theorem submit_accepted {s : State} (ready : Ready s) (op : Op) (rd : Reg) (a b : U128) :
    whenReady s (acceptWith op rd (some a) (some b) s) = .next (withPending op rd a b s) := by
  rw [whenReady_ready ready, acceptWith, accept_eq]

theorem submitUnary_accepted {s : State} (ready : Ready s) {rs1 : Reg} (written : FullyWritten rs1 s) (op : Op) (rd : Reg) :
    submitUnary op rd rs1 s = .next (withPending op rd (s.reg rs1) 0#128 s) := by
  rw [submitUnary, fullOperand_written written, submit_accepted ready]

/-- The unit step after an accepted command is its completion (30_encoding R72). -/
theorem unitStep_withPending (op : Op) (rd : Reg) (a b : U128) (s : State) :
    unitStep (withPending op rd a b s) = complete ⟨op, rd, a, b⟩ (withPending op rd a b s) :=
  unitStep_pending rfl rfl

/-- A result empties the latch and clears BUSY, so nothing is left of the accept step. -/
@[simp] theorem withResult_withPending (op : Op) (rd' rd : Reg) (a b w : U128) (c v : Bool) (s : State) :
    withResult rd w c v (withPending op rd' a b s) = withResult rd w c v s := rfl

theorem complete_lzc (rd : Reg) (a b : U128) (s : State) :
    complete ⟨.lzc, rd, a, b⟩ s = withResult rd (from64 (BitVec.ofNat 64 (leadingZeros a))) false false s := by
  rw [complete, completeLzc, writeResult_eq]

/-- The count fits its word, so the low word of the result is the count. -/
theorem leadingZeros_word_toNat (a : U128) :
    (BitVec.ofNat 64 (leadingZeros a)).toNat = 128 - bitLength a.toNat := by
  have sum := leadingZeros_add_bitLength a
  rw [ofNat64_toNat]
  omega

/-- Settles O18: accepted as a unary command; its completion writes the count in one word. -/
theorem lzcRunsToItsCount : Obligations.LzcRunsToItsCount := by
  intro rd rs1 s ready written
  refine ⟨submitUnary_accepted ready written .lzc rd, from64 (BitVec.ofNat 64 (leadingZeros (s.reg rs1))), ?_, ?_, ?_⟩
  · rw [lo_from64, leadingZeros_word_toNat]
  · exact hi_from64 _
  · rw [unitStep_withPending, complete_lzc, withResult_withPending]

end Sys2Proof.Machine
end

section
/-!
PROOFS. The arithmetic family (42_arithmetic R90 to R98): its word-level results are the ring operations modulo 2^128, the
mixed forms are the full ones on the zero-extended word, and each command, once accepted, completes with that result.
-/

namespace Sys2Proof.Machine

/-! ### The results are the ring operations of 128-bit words -/

theorem addResult_eq_add (a b : U128) : addResult a b = a + b :=
  BitVec.eq_of_toNat_eq (by rw [addResult_toNat, BitVec.toNat_add])

theorem subResult_eq_sub (a b : U128) : subResult a b = a - b :=
  BitVec.eq_of_toNat_eq (by rw [subResult_toNat, BitVec.toNat_sub]; omega)

theorem mulResult_eq_mul (a b : U128) : mulResult a b = a * b :=
  BitVec.eq_of_toNat_eq (by rw [mulResult_toNat, BitVec.toNat_mul])

/-- The carry shows in the result: a sum that wrapped lies below its operands (42_arithmetic R98). -/
theorem addCarry_iff_lt (a b : U128) : addCarry a b = true ↔ (addResult a b).toNat < a.toNat := by
  have ha := a.isLt
  have hb := b.isLt
  rw [addCarry_iff, decide_eq_true_iff, addResult_toNat]
  omega

/-- Settles O51: the laws are those of the ring of 128-bit words. -/
theorem arithmeticLaws : Obligations.ArithmeticLaws := by
  intro a b c
  simp only [addResult_eq_add, subResult_eq_sub, mulResult_eq_mul]
  refine ⟨BitVec.add_comm a b, BitVec.add_assoc a b c, BitVec.add_zero a, BitVec.add_sub_cancel a b,
    BitVec.sub_add_cancel a b, BitVec.mul_comm a b, BitVec.mul_assoc a b c, BitVec.mul_add, ?_, ?_⟩
  · rw [← addResult_eq_add, addCarry_iff_lt]
  · rw [subBorrow_iff, decide_eq_true_iff]

/-! ### V of MUL by words -/

/-- The schoolbook product: high words, cross terms, low words. -/
theorem product_by_words (a b : U128) :
    a.toNat * b.toNat = 2 ^ 128 * ((hi a).toNat * (hi b).toNat)
      + 2 ^ 64 * ((lo a).toNat * (hi b).toNat + (hi a).toNat * (lo b).toNat) + (lo a).toNat * (lo b).toNat := by
  rw [val_eq a, val_eq b]
  ring

theorem word_mul_lt (v w : Word) : v.toNat * w.toNat < 2 ^ 128 :=
  calc v.toNat * w.toNat < 2 ^ 64 * 2 ^ 64 := Nat.mul_lt_mul'' v.isLt w.isLt
    _ = 2 ^ 128 := by norm_num

theorem toNat_mul_ne_zero_iff (v w : Word) : v.toNat * w.toNat ≠ 0 ↔ v ≠ 0#64 ∧ w ≠ 0#64 := by
  simp [← BitVec.toNat_inj]

/-- Settles O50: a nonzero product of the high words overflows by itself; without one the middle sum decides. -/
theorem mulOverflowByWords : Obligations.MulOverflowByWords := by
  intro a b
  have low := word_mul_lt (lo a) (lo b)
  rw [mulOverflow, decide_eq_true_iff, product_by_words, ← toNat_mul_ne_zero_iff, hi64]
  omega

/-! ### The mixed forms -/

theorem add64Result_eq (a : U128) (d : Word) : add64Result a d = addResult a (from64 d) := by
  simp [add64Result, addResult]

theorem sub64Result_eq (a : U128) (d : Word) : sub64Result a d = subResult a (from64 d) := by
  simp [sub64Result, subResult]

theorem mul64Result_eq (a : U128) (d : Word) : mul64Result a d = mulResult a (from64 d) := by
  simp [mul64Result, mulResult, lo64]

/-- Settles O49: result and flag of each direct form are those of the full form on `from64 d`. -/
theorem mixedFormsAgree : Obligations.MixedFormsAgree := by
  intro rd a d s
  refine ⟨?_, ?_, ?_⟩
  · rw [completeAdd64, completeAdd, lo_from64, add64Result_eq, add64Carry_eq]
  · rw [completeSub64, completeSub, lo_from64, sub64Result_eq, sub64Borrow_eq]
  · rw [completeMul64, completeMul, lo_from64, mul64Result_eq, mul64Overflow_eq]

/-! ### The completions, in exact numbers -/

theorem eq_u128_of_toNat {x : U128} {n : Nat} (value : x.toNat = n % 2 ^ 128) : x = u128 n :=
  BitVec.eq_of_toNat_eq (by rw [value, u128_toNat])

theorem completeAdd_eq (rd : Reg) (a b : U128) (s : State) :
    completeAdd rd a b s
      = withResult rd (u128 (a.toNat + b.toNat)) (decide (2 ^ 128 ≤ a.toNat + b.toNat)) false s := by
  rw [completeAdd, writeResult_eq, eq_u128_of_toNat (addResult_toNat a b), addCarry_iff]

theorem completeSub_eq (rd : Reg) (a b : U128) (s : State) :
    completeSub rd a b s
      = withResult rd (u128 (a.toNat + 2 ^ 128 - b.toNat)) (decide (a.toNat < b.toNat)) false s := by
  rw [completeSub, writeResult_eq, eq_u128_of_toNat (subResult_toNat a b), subBorrow_iff]

theorem completeMul_eq (rd : Reg) (a b : U128) (s : State) :
    completeMul rd a b s
      = withResult rd (u128 (a.toNat * b.toNat)) false (decide (2 ^ 128 ≤ a.toNat * b.toNat)) s := by
  rw [completeMul, writeResult_eq, eq_u128_of_toNat (mulResult_toNat a b), mulOverflow]

theorem completeAdd64_eq (rd : Reg) (a : U128) (d : Word) (s : State) :
    completeAdd64 rd a (from64 d) s
      = withResult rd (u128 (a.toNat + d.toNat)) (decide (2 ^ 128 ≤ a.toNat + d.toNat)) false s := by
  obtain ⟨add, -, -⟩ := mixedFormsAgree rd a d s
  rw [add, completeAdd_eq, from64_toNat]

theorem completeSub64_eq (rd : Reg) (a : U128) (d : Word) (s : State) :
    completeSub64 rd a (from64 d) s
      = withResult rd (u128 (a.toNat + 2 ^ 128 - d.toNat)) (decide (a.toNat < d.toNat)) false s := by
  obtain ⟨-, sub, -⟩ := mixedFormsAgree rd a d s
  rw [sub, completeSub_eq, from64_toNat]

theorem completeMul64_eq (rd : Reg) (a : U128) (d : Word) (s : State) :
    completeMul64 rd a (from64 d) s
      = withResult rd (u128 (a.toNat * d.toNat)) false (decide (2 ^ 128 ≤ a.toNat * d.toNat)) s := by
  obtain ⟨-, -, mul⟩ := mixedFormsAgree rd a d s
  rw [mul, completeMul_eq, from64_toNat]

/-! ### The commands -/

theorem submitFull_accepted {s : State} (ready : Ready s) {rs1 rs2 : Reg} (written : FullyWritten rs1 s)
    (written' : FullyWritten rs2 s) (op : Op) (rd : Reg) :
    submitFull op rd rs1 rs2 s = .next (withPending op rd (s.reg rs1) (s.reg rs2) s) := by
  rw [submitFull, fullOperand_written written, fullOperand_written written', submit_accepted ready]

theorem submitMixed_accepted {s : State} (ready : Ready s) {rs1 rs2 : Reg} (written : FullyWritten rs1 s)
    (low : LowWritten rs2 s) (op : Op) (rd : Reg) :
    submitMixed op rd rs1 rs2 s = .next (withPending op rd (s.reg rs1) (from64 (lo (s.reg rs2))) s) := by
  rw [submitMixed, fullOperand_written written, mixedOperand_written low, submit_accepted ready]

/-- Settles O8: accepted with both operands, completed with the sum. -/
theorem addRunsToItsSum : Obligations.AddRunsToItsSum := by
  intro rd rs1 rs2 s ready written written'
  refine ⟨submitFull_accepted ready written written' .add rd, ?_⟩
  rw [unitStep_withPending, complete, completeAdd_eq, withResult_withPending]

/-- Settles O9: accepted with both operands, completed with the difference. -/
theorem subRunsToItsDifference : Obligations.SubRunsToItsDifference := by
  intro rd rs1 rs2 s ready written written'
  refine ⟨submitFull_accepted ready written written' .sub rd, ?_⟩
  rw [unitStep_withPending, complete, completeSub_eq, withResult_withPending]

/-- Settles O10: accepted with both operands, completed with the product. -/
theorem mulRunsToItsProduct : Obligations.MulRunsToItsProduct := by
  intro rd rs1 rs2 s ready written written'
  refine ⟨submitFull_accepted ready written written' .mul rd, ?_⟩
  rw [unitStep_withPending, complete, completeMul_eq, withResult_withPending]

/-- Settles O11: the low word of `X[rs2]` is all that the latch holds of it. -/
theorem add64RunsToItsSum : Obligations.Add64RunsToItsSum := by
  intro rd rs1 rs2 s ready written low
  refine ⟨submitMixed_accepted ready written low .add64 rd, ?_⟩
  rw [unitStep_withPending, complete, completeAdd64_eq, withResult_withPending]

/-- Settles O12, through SUB on the zero-extended word. -/
theorem sub64RunsToItsDifference : Obligations.Sub64RunsToItsDifference := by
  intro rd rs1 rs2 s ready written low
  refine ⟨submitMixed_accepted ready written low .sub64 rd, ?_⟩
  rw [unitStep_withPending, complete, completeSub64_eq, withResult_withPending]

/-- Settles O13, through MUL on the zero-extended word. -/
theorem mul64RunsToItsProduct : Obligations.Mul64RunsToItsProduct := by
  intro rd rs1 rs2 s ready written low
  refine ⟨submitMixed_accepted ready written low .mul64 rd, ?_⟩
  rw [unitStep_withPending, complete, completeMul64_eq, withResult_withPending]

end Sys2Proof.Machine
end

section
/-!
PROOFS. Division (43_division R110 to R116, R121): quotient and remainder are those of Euclidean division, they check out with
the unit's own MUL and ADD, and each division command, once accepted, completes with its result.
-/

namespace Sys2Proof.Machine

/-! ### Quotient and remainder in exact numbers -/

@[simp] theorem quotient_toNat (a b : U128) : (quotient a b).toNat = a.toNat / b.toNat := by
  rw [quotient, u128_toNat, Nat.mod_eq_of_lt ((Nat.div_le_self _ _).trans_lt a.isLt)]

@[simp] theorem remainder_toNat (a b : U128) : (remainder a b).toNat = a.toNat % b.toNat := by
  rw [remainder, u128_toNat, Nat.mod_eq_of_lt ((Nat.mod_le _ _).trans_lt a.isLt)]

/-- Settles O52: Euclidean division of the values. -/
theorem divisionIdentityIsExactAndUnique : Obligations.DivisionIdentityIsExactAndUnique := by
  intro a b positive
  rw [quotient_toNat, remainder_toNat]
  refine ⟨rfl, rfl, Nat.div_add_mod' _ _, Nat.mod_lt _ positive, fun q r identity small => ?_⟩
  rw [add_comm, mul_comm] at identity
  obtain ⟨quotient_eq, remainder_eq⟩ := (Nat.div_mod_unique positive).mpr ⟨identity, small⟩
  exact ⟨quotient_eq.symm, remainder_eq.symm⟩

/-- Settles O53: the product and the sum of the identity are at most `val(a)`, so neither leaves 128 bits. -/
theorem unitCheckOfADivision : Obligations.UnitCheckOfADivision := by
  intro a b positive
  obtain ⟨-, -, identity, -, -⟩ := divisionIdentityIsExactAndUnique a b positive
  have bound := a.isLt
  have product : (mulResult (quotient a b) b).toNat = (quotient a b).toNat * b.toNat := by
    rw [mulResult_toNat, Nat.mod_eq_of_lt (by omega)]
  refine ⟨BitVec.eq_of_toNat_eq ?_, ?_, ?_⟩
  · rw [addResult_toNat, product, identity, Nat.mod_eq_of_lt bound]
  · rw [mulOverflow, decide_eq_false_iff_not]
    omega
  · rw [addCarry_iff, product, identity, decide_eq_false_iff_not]
    omega

/-! ### The commands -/

theorem ne_zero_of_one_le {w : Nat} {b : BitVec w} (positive : 1 ≤ b.toNat) : b ≠ 0#w :=
  fun zero => absurd positive (by simp [zero])

/-- On a ready unit a division by a divisor that is not zero is accepted (30_encoding R70, 43_division R110). -/
theorem division_accepted {s : State} (ready : Ready s) (op : Op) (w : Word32) (rd : Reg) (a : U128) {b : U128}
    (positive : 1 ≤ b.toNat) :
    whenReady s (acceptDivision op w rd (some a) (some b) s) = .next (withPending op rd a b s) := by
  rw [whenReady_ready ready, acceptDivision, if_neg (ne_zero_of_one_le positive), accept_eq]

theorem submitDivision_accepted {s : State} (ready : Ready s) {rs1 rs2 : Reg} (written : FullyWritten rs1 s)
    (written' : FullyWritten rs2 s) (positive : 1 ≤ (s.reg rs2).toNat) (op : Op) (w : Word32) (rd : Reg) :
    submitDivision op w rd rs1 rs2 s = .next (withPending op rd (s.reg rs1) (s.reg rs2) s) := by
  rw [submitDivision, fullOperand_written written, fullOperand_written written', division_accepted ready _ _ _ _ positive]

theorem submitDivision64_accepted {s : State} (ready : Ready s) {rs1 rs2 : Reg} (written : FullyWritten rs1 s)
    (low : LowWritten rs2 s) (positive : 1 ≤ (lo (s.reg rs2)).toNat) (op : Op) (w : Word32) (rd : Reg) :
    submitDivision64 op w rd rs1 rs2 s = .next (withPending op rd (s.reg rs1) (from64 (lo (s.reg rs2))) s) := by
  rw [submitDivision64, fullOperand_written written, mixedOperand_written low,
    division_accepted ready _ _ _ _ (by rwa [from64_toNat])]

theorem quotient64_toNat (a : U128) (d : Word) : (quotient64 a d).toNat = a.toNat / d.toNat := by
  rw [quotient64, u128_toNat, Nat.mod_eq_of_lt ((Nat.div_le_self _ _).trans_lt a.isLt)]

/-- A remainder by a word fits a word. -/
theorem remainder64_toNat (a : U128) {d : Word} (positive : 1 ≤ d.toNat) : (remainder64 a d).toNat = a.toNat % d.toNat := by
  rw [remainder64, from64_toNat, ofNat64_toNat, Nat.mod_eq_of_lt ((Nat.mod_lt _ positive).trans d.isLt)]

/-- Settles O14: accepted with both operands, completed with the quotient. -/
theorem divRunsToItsQuotient : Obligations.DivRunsToItsQuotient := by
  intro rd rs1 rs2 s ready written written' positive
  refine ⟨submitDivision_accepted ready written written' positive .div _ rd, quotient (s.reg rs1) (s.reg rs2),
    quotient_toNat _ _, ?_⟩
  rw [unitStep_withPending, complete, completeDiv, writeResult_eq, withResult_withPending]

/-- Settles O15: accepted with both operands, completed with the remainder. -/
theorem modRunsToItsRemainder : Obligations.ModRunsToItsRemainder := by
  intro rd rs1 rs2 s ready written written' positive
  refine ⟨submitDivision_accepted ready written written' positive .mod _ rd, remainder (s.reg rs1) (s.reg rs2),
    remainder_toNat _ _, ?_⟩
  rw [unitStep_withPending, complete, completeMod, writeResult_eq, withResult_withPending]

/-- Settles O16: the low word of `X[rs2]` is all that the latch holds of it, and all that the completion reads. -/
theorem div64RunsToItsQuotient : Obligations.Div64RunsToItsQuotient := by
  intro rd rs1 rs2 s ready written low positive
  refine ⟨submitDivision64_accepted ready written low positive .div64 _ rd, quotient64 (s.reg rs1) (lo (s.reg rs2)),
    quotient64_toNat _ _, ?_⟩
  rw [unitStep_withPending, complete, completeDiv64, lo_from64, writeResult_eq, withResult_withPending]

/-- Settles O17: as DIV64, with a remainder of one word. -/
theorem mod64RunsToItsRemainder : Obligations.Mod64RunsToItsRemainder := by
  intro rd rs1 rs2 s ready written low positive
  refine ⟨submitDivision64_accepted ready written low positive .mod64 _ rd, remainder64 (s.reg rs1) (lo (s.reg rs2)),
    remainder64_toNat _ positive, hi_from64 _, ?_⟩
  rw [unitStep_withPending, complete, completeMod64, lo_from64, writeResult_eq, withResult_withPending]

end Sys2Proof.Machine
end

section
/-!
PROOFS. The source's division algorithms (43_division R117 to R120): the restoring loop from any position that agrees with the
leading bits of the dividend, the leading-zero skip as one such position, the normalized division, and the path selection.
-/

namespace Sys2Proof.Machine

theorem eq_quotient_remainder {a b : U128} {p : U128 × U128} (first : p.1.toNat = a.toNat / b.toNat)
    (second : p.2.toNat = a.toNat % b.toNat) : p = (quotient a b, remainder a b) :=
  Prod.ext (BitVec.eq_of_toNat_eq (by rw [first, quotient_toNat]))
    (BitVec.eq_of_toNat_eq (by rw [second, remainder_toNat]))

/-! ### The restoring loop (43_division R119) -/

/-- Before the loop takes bit `i − 1`: `r` is the remainder of the dividend's bits from `i` up, and their quotient stands in
`q` from bit `i` up. -/
structure LoopAt (a b : U128) (i : Nat) (q r : U128) : Prop where
  quotient_eq : q.toNat = a.toNat / 2 ^ i / b.toNat * 2 ^ i
  remainder_eq : r.toNat = a.toNat / 2 ^ i % b.toNat

/-- The running remainder with the next bit of the dividend shifted in. -/
def shiftIn (r : U128) (bit : Bool) : U128 := r <<< 1 ||| (BitVec.ofBool bit).setWidth 128

theorem restoringLoop_succ (a b : U128) (i : Nat) (q r : U128) :
    restoringLoop a b (i + 1) q r
      = if b.toNat ≤ (shiftIn r (a.getLsbD i)).toNat
        then restoringLoop a b i (q ||| 1#128 <<< i) (shiftIn r (a.getLsbD i) - b)
        else restoringLoop a b i q (shiftIn r (a.getLsbD i)) := rfl

/-- Taking bit `i` doubles what stands above it. -/
theorem leadingBits_eq (a : U128) (i : Nat) :
    a.toNat / 2 ^ i = 2 * (a.toNat / 2 ^ (i + 1)) + (a.getLsbD i).toNat := by
  rw [← BitVec.testBit_toNat, Nat.toNat_testBit, pow_succ, ← Nat.div_div_eq_div_mul, Nat.div_add_mod]

theorem shiftIn_toNat {r : U128} {bit : Bool} (fits : 2 * r.toNat + bit.toNat < 2 ^ 128) :
    (shiftIn r bit).toNat = 2 * r.toNat + bit.toNat := by
  have shifted : (r <<< 1).toNat = r.toNat <<< 1 := by
    rw [BitVec.toNat_shiftLeft, Nat.shiftLeft_eq, Nat.mod_eq_of_lt (by omega)]
  have low : ((BitVec.ofBool bit).setWidth 128).toNat = bit.toNat := by cases bit <;> rfl
  rw [shiftIn, BitVec.toNat_or, shifted, low, ← Nat.shiftLeft_add_eq_or_of_lt (by cases bit <;> decide), Nat.shiftLeft_eq]
  ring

/-- Setting a quotient bit below all that are set adds its weight. -/
theorem setBit_toNat {q : U128} {k i : Nat} (above : q.toNat = k * 2 ^ (i + 1)) (hi : i < 128) :
    (q ||| 1#128 <<< i).toNat = (2 * k + 1) * 2 ^ i := by
  rw [BitVec.toNat_or, ← BitVec.twoPow_eq, BitVec.toNat_twoPow_of_lt hi, above, ← Nat.shiftLeft_eq,
    ← Nat.shiftLeft_add_eq_or_of_lt (Nat.pow_lt_pow_right one_lt_two (Nat.lt_succ_self i)), Nat.shiftLeft_eq, pow_succ]
  ring

/-- The running remainder never exceeds the bits taken so far, so it has room for the next one in 128 bits
(90_conflicts C4). -/
theorem LoopAt.nextRemainder_toNat {a b q r : U128} {i : Nat} (h : LoopAt a b (i + 1) q r) :
    (shiftIn r (a.getLsbD i)).toNat = 2 * r.toNat + (a.getLsbD i).toNat := by
  have reduced : r.toNat ≤ a.toNat / 2 ^ (i + 1) := h.remainder_eq.trans_le (Nat.mod_le _ _)
  have leading := leadingBits_eq a i
  have whole : a.toNat / 2 ^ i ≤ a.toNat := Nat.div_le_self _ _
  have bound := a.isLt
  exact shiftIn_toNat (by omega)

/-- With the next bit in, the running remainder is what the doubled quotient leaves of the leading bits. -/
theorem LoopAt.nextRemainder_add {a b q r : U128} {i : Nat} (h : LoopAt a b (i + 1) q r) :
    (shiftIn r (a.getLsbD i)).toNat + b.toNat * (2 * (a.toNat / 2 ^ (i + 1) / b.toNat)) = a.toNat / 2 ^ i := by
  have identity := Nat.div_add_mod (a.toNat / 2 ^ (i + 1)) b.toNat
  rw [h.nextRemainder_toNat, h.remainder_eq, leadingBits_eq a i, Nat.mul_left_comm]
  omega

/-- One iteration that subtracts and sets bit `i` of the quotient. -/
theorem LoopAt.subtract {a b q r : U128} {i : Nat} (h : LoopAt a b (i + 1) q r) (hi : i < 128) (positive : 1 ≤ b.toNat)
    (enough : b.toNat ≤ (shiftIn r (a.getLsbD i)).toNat) :
    LoopAt a b i (q ||| 1#128 <<< i) (shiftIn r (a.getLsbD i) - b) := by
  have once : (shiftIn r (a.getLsbD i)).toNat < 2 * b.toNat := by
    have small : r.toNat < b.toNat := h.remainder_eq.trans_lt (Nat.mod_lt _ positive)
    have bit := Bool.toNat_le (a.getLsbD i)
    rw [h.nextRemainder_toNat]
    omega
  have difference : (shiftIn r (a.getLsbD i) - b).toNat = (shiftIn r (a.getLsbD i)).toNat - b.toNat :=
    BitVec.toNat_sub_of_le enough
  have identity : (shiftIn r (a.getLsbD i) - b).toNat + b.toNat * (2 * (a.toNat / 2 ^ (i + 1) / b.toNat) + 1)
      = a.toNat / 2 ^ i := by
    have taken := h.nextRemainder_add
    rw [difference, mul_add, mul_one]
    omega
  obtain ⟨quotient_eq, remainder_eq⟩ := (Nat.div_mod_unique positive).mpr ⟨identity, by omega⟩
  exact ⟨by rw [quotient_eq, setBit_toNat h.quotient_eq hi], remainder_eq.symm⟩

/-- One iteration that keeps the running remainder and leaves bit `i` of the quotient clear. -/
theorem LoopAt.keep {a b q r : U128} {i : Nat} (h : LoopAt a b (i + 1) q r) (positive : 1 ≤ b.toNat)
    (short : (shiftIn r (a.getLsbD i)).toNat < b.toNat) :
    LoopAt a b i q (shiftIn r (a.getLsbD i)) := by
  obtain ⟨quotient_eq, remainder_eq⟩ := (Nat.div_mod_unique positive).mpr ⟨h.nextRemainder_add, short⟩
  refine ⟨?_, remainder_eq.symm⟩
  rw [h.quotient_eq, quotient_eq, pow_succ]
  ring

/-- The loop ends with the contract's pair from every position that agrees with the leading bits of the dividend. -/
theorem restoringLoop_eq {a b : U128} (positive : 1 ≤ b.toNat) {i : Nat} (hi : i ≤ 128) {q r : U128}
    (h : LoopAt a b i q r) : restoringLoop a b i q r = (quotient a b, remainder a b) := by
  induction i generalizing q r with
  | zero => exact eq_quotient_remainder (p := (q, r)) (by simpa using h.quotient_eq) (by simpa using h.remainder_eq)
  | succ i ih =>
    rw [restoringLoop_succ]
    split_ifs with enough
    · exact ih (by omega) (h.subtract hi positive enough)
    · exact ih (by omega) (h.keep positive (Nat.lt_of_not_le enough))

theorem restoringDivide_eq {a b : U128} (positive : 1 ≤ b.toNat) :
    restoringDivide a b = (quotient a b, remainder a b) := by
  have none_taken : a.toNat / 2 ^ 128 = 0 := Nat.div_eq_of_lt a.isLt
  exact restoringLoop_eq positive le_rfl ⟨by rw [none_taken]; simp, by rw [none_taken]; simp⟩

/-! ### The leading-zero count of the divisor (43_division R120) -/

/-- Shifted left by its leading-zero count, a value that is not zero has bit 127 as its top bit. -/
theorem normalized_bounds {b : U128} (positive : 1 ≤ b.toNat) :
    2 ^ 127 ≤ b.toNat * 2 ^ leadingZeros b ∧ b.toNat * 2 ^ leadingZeros b < 2 ^ 128 := by
  have nonzero : b.toNat ≠ 0 := by omega
  have count := leadingZeros_add_bitLength b
  rw [bitLength_of_ne_zero nonzero] at count
  constructor
  · calc 2 ^ 127 = 2 ^ b.toNat.log2 * 2 ^ leadingZeros b := by rw [← pow_add]; congr 1; omega
      _ ≤ b.toNat * 2 ^ leadingZeros b := Nat.mul_le_mul_right _ (Nat.log2_self_le nonzero)
  · calc b.toNat * 2 ^ leadingZeros b < 2 ^ (b.toNat.log2 + 1) * 2 ^ leadingZeros b :=
          Nat.mul_lt_mul_of_pos_right Nat.lt_log2_self (by positivity)
      _ = 2 ^ 128 := by rw [← pow_add]; congr 1; omega

theorem leadingZeros_lt {b : U128} (positive : 1 ≤ b.toNat) : leadingZeros b < 128 := by
  have bounds := normalized_bounds positive
  exact (Nat.pow_lt_pow_iff_right one_lt_two).mp
    ((Nat.le_mul_of_pos_left _ positive).trans_lt bounds.2)

/-- The skipped iterations take bits that are together less than `b`: all of them stand in the remainder. -/
theorem skippingDivide_eq {a b : U128} (positive : 1 ≤ b.toNat) :
    skippingDivide a b = (quotient a b, remainder a b) := by
  have count := leadingZeros_lt positive
  have less : a.toNat / 2 ^ (leadingZeros b + 1) < b.toNat := by
    have bounds := normalized_bounds positive
    have bound := a.isLt
    rw [Nat.div_lt_iff_lt_mul (by positivity), pow_succ, ← mul_assoc]
    omega
  have fits : a.toNat / 2 ^ (leadingZeros b + 1) < 2 ^ 128 := less.trans b.isLt
  rw [skippingDivide, if_neg (ne_zero_of_one_le positive)]
  refine restoringLoop_eq positive count ⟨?_, ?_⟩
  · simp [Nat.div_eq_of_lt less]
  · rw [rsh_eq_u128, u128_toNat, Nat.mod_eq_of_lt fits, Nat.mod_eq_of_lt less]

/-- 256 bits hold a shifted dividend, and 128 the normalized divisor. -/
theorem normalizedOperands_toNat (a : U128) {b : U128} (positive : 1 ≤ b.toNat) :
    (a.setWidth 256 <<< leadingZeros b).toNat = a.toNat * 2 ^ leadingZeros b
      ∧ ((lsh b (leadingZeros b)).setWidth 256).toNat = b.toNat * 2 ^ leadingZeros b := by
  have room : a.toNat * 2 ^ leadingZeros b < 2 ^ 256 :=
    calc a.toNat * 2 ^ leadingZeros b < 2 ^ 128 * 2 ^ 128 :=
          Nat.mul_lt_mul'' a.isLt (Nat.pow_lt_pow_right one_lt_two (leadingZeros_lt positive))
      _ = 2 ^ 256 := by norm_num
  constructor
  · rw [BitVec.toNat_shiftLeft, BitVec.toNat_setWidth_of_le (by norm_num), Nat.shiftLeft_eq, Nat.mod_eq_of_lt room]
  · rw [BitVec.toNat_setWidth_of_le (by norm_num), lsh_eq_u128, u128_toNat,
      Nat.mod_eq_of_lt (normalized_bounds positive).2]

/-- Scaling both operands by a power of two keeps the quotient and scales the remainder. -/
theorem normalizedDivide_eq {a b : U128} (positive : 1 ≤ b.toNat) :
    normalizedDivide a b = (quotient a b, remainder a b) := by
  obtain ⟨wide, divisor⟩ := normalizedOperands_toNat a positive
  have scale : 0 < 2 ^ leadingZeros b := by positivity
  have scaled : a.toNat % b.toNat * 2 ^ leadingZeros b < 2 ^ 128 :=
    (Nat.mul_lt_mul_of_pos_right (Nat.mod_lt _ positive) scale).trans (normalized_bounds positive).2
  apply eq_quotient_remainder
  · rw [normalizedDivide, BitVec.toNat_setWidth, BitVec.toNat_udiv, wide, divisor, Nat.mul_div_mul_right _ _ scale,
      ← quotient_toNat, Nat.mod_eq_of_lt (BitVec.isLt _)]
  · rw [normalizedDivide, rsh_eq_u128, u128_toNat, BitVec.toNat_setWidth, BitVec.toNat_umod, wide, divisor,
      Nat.mul_mod_mul_right, Nat.mod_eq_of_lt scaled, Nat.mul_div_cancel _ scale, ← remainder_toNat,
      Nat.mod_eq_of_lt (BitVec.isLt _)]

/-- Settles O55, by the three algorithms' own lemmas. -/
theorem permittedOptimisationsAgree : Obligations.PermittedOptimisationsAgree := fun _ _ positive =>
  ⟨restoringDivide_eq positive, (skippingDivide_eq positive).trans (restoringDivide_eq positive).symm,
    normalizedDivide_eq positive⟩

/-! ### The path selection (43_division R117, R118) -/

theorem lo_toNat_of_hi_zero {b : U128} (h : hi b = 0#64) : (lo b).toNat = b.toNat := by
  rw [← from64_toNat, from64_lo_of_hi_zero h]

/-- Two steps of schoolbook division: the remainder of the high word goes on to the low word. -/
theorem twoStepDivide_eq (a : U128) {d : Word} (positive : 1 ≤ d.toNat) :
    twoStepDivide a d = some (quotient a (from64 d), remainder a (from64 d)) := by
  have small : (hi a % d).toNat < d.toNat := by
    rw [BitVec.toNat_umod]
    exact Nat.mod_lt _ positive
  obtain ⟨qLo, r, second, quotient_eq, remainder_eq⟩ := divideWide_of_lt (lo a) small
  have value : a.toNat = (hi a % d).toNat * 2 ^ 64 + (lo a).toNat + d.toNat * ((hi a / d).toNat * 2 ^ 64) := by
    rw [val_eq a, BitVec.toNat_umod, BitVec.toNat_udiv]
    linarith [Nat.div_add_mod (hi a).toNat d.toNat]
  simp only [twoStepDivide, div64x64_of_ne_zero _ (ne_zero_of_one_le positive), second, Option.some.injEq]
  apply eq_quotient_remainder
  · rw [join_toNat, from64_toNat, quotient_eq, value, Nat.add_mul_div_left _ _ positive, add_comm]
  · rw [from64_toNat, from64_toNat, remainder_eq, value, Nat.add_mul_mod_self_left]

/-- Settles O54, by the path taken. -/
theorem referenceDivisionMeetsTheContract : Obligations.ReferenceDivisionMeetsTheContract := by
  intro a b positive
  rw [referenceDivide, if_neg (ne_zero_of_one_le positive)]
  split_ifs with words word less
  · obtain ⟨dividend, divisor⟩ := words
    have low : 1 ≤ (lo b).toNat := by rwa [lo_toNat_of_hi_zero divisor]
    rw [div64x64_of_ne_zero _ (ne_zero_of_one_le low)]
    refine congrArg some (eq_quotient_remainder ?_ ?_)
    · rw [from64_toNat, BitVec.toNat_udiv, lo_toNat_of_hi_zero dividend, lo_toNat_of_hi_zero divisor]
    · rw [from64_toNat, BitVec.toNat_umod, lo_toNat_of_hi_zero dividend, lo_toNat_of_hi_zero divisor]
  · rw [twoStepDivide_eq a (by rwa [lo_toNat_of_hi_zero word]), from64_lo_of_hi_zero word]
  · rw [cmp_eq_compare, Nat.compare_eq_gt] at less
    exact congrArg some (eq_quotient_remainder (Nat.div_eq_of_lt less).symm (Nat.mod_eq_of_lt less).symm)
  · rw [restoringDivide_eq positive]

end Sys2Proof.Machine
end

section
/-!
PROOFS. Decimal conversion (44_decimal R130 to R133): the text of a value is its digits by position, its numeral is the value,
the conversion by groups of 19 digits writes the same text, and BIN2DEC, once accepted, completes with it in DECBUF.
-/

namespace Sys2Proof.Machine

/-! ### A fixed number of digits (44_decimal R132) -/

@[simp] theorem paddedDigits_length (k n : Nat) : (paddedDigits k n).length = k := by
  induction k generalizing n with
  | zero => rfl
  | succ k ih => rw [paddedDigits, List.length_append, ih, List.length_singleton]

theorem paddedDigits_getElem {k i : Nat} (n : Nat) (h : i < (paddedDigits k n).length) :
    (paddedDigits k n)[i] = n / 10 ^ (k - 1 - i) % 10 := by
  induction k generalizing n with
  | zero => simp at h
  | succ k ih =>
    rw [paddedDigits_length] at h
    simp only [paddedDigits, List.getElem_append, paddedDigits_length]
    split
    next inside =>
      rw [ih, Nat.div_div_eq_div_mul, ← pow_succ', show k - 1 - i + 1 = k + 1 - 1 - i by omega]
    next last =>
      rw [show k + 1 - 1 - i = 0 by omega, pow_zero, Nat.div_one, List.getElem_singleton]

/-- Only the low `k` digits of the number are written. -/
theorem paddedDigits_mod (k n : Nat) : paddedDigits k (n % 10 ^ k) = paddedDigits k n := by
  induction k generalizing n with
  | zero => rfl
  | succ k ih =>
    rw [paddedDigits, paddedDigits, pow_succ', Nat.mod_mul_right_div_self, Nat.mod_mul_right_mod, ih]

theorem numeral_append_digit (ds : List Nat) (d : Nat) : numeral (ds ++ [d]) = 10 * numeral ds + d := by
  simp [numeral]

theorem numeral_paddedDigits (k n : Nat) : numeral (paddedDigits k n) = n % 10 ^ k := by
  induction k generalizing n with
  | zero => simp [paddedDigits, numeral, Nat.mod_one]
  | succ k ih => rw [paddedDigits, numeral_append_digit, ih, pow_succ', Nat.mod_mul, add_comm]

/-! ### The digits of a number by position -/

/-- The text is as many digits of the number as it has places. -/
theorem decDigits_eq_paddedDigits (fuel n : Nat) : decDigits fuel n = paddedDigits (decDigits fuel n).length n := by
  induction fuel generalizing n with
  | zero => rfl
  | succ fuel ih =>
    rw [decDigits]
    split
    next digit => simp [paddedDigits, Nat.mod_eq_of_lt digit]
    next => rw [List.length_append, List.length_singleton, paddedDigits, ← ih]

theorem lt_pow_decDigits_length {fuel n : Nat} (fits : n < 10 ^ fuel) : n < 10 ^ (decDigits fuel n).length := by
  induction fuel generalizing n with
  | zero => exact fits
  | succ fuel ih =>
    rw [decDigits]
    split
    next digit => simpa using digit
    next =>
      have shorter := ih (n := n / 10) (by omega)
      rw [List.length_append, List.length_singleton]
      omega

/-- The first place of a positive number's text is not above the number. -/
theorem pow_decDigits_length_le (fuel : Nat) {n : Nat} (pos : 0 < n) : 10 ^ (decDigits fuel n).length ≤ 10 * n := by
  induction fuel generalizing n with
  | zero =>
    change 1 ≤ 10 * n
    omega
  | succ fuel ih =>
    rw [decDigits]
    split
    · rw [List.length_singleton]
      omega
    · have shorter := ih (n := n / 10) (by omega)
      rw [List.length_append, List.length_singleton]
      omega

/-- Fuel enough for the number is as good as more of it. -/
theorem decDigits_more_fuel (extra : Nat) {fuel n : Nat} (fits : n < 10 ^ (fuel + 1)) :
    decDigits (fuel + extra + 1) n = decDigits (fuel + 1) n := by
  induction fuel generalizing n with
  | zero => rw [decDigits, decDigits, if_pos (by simpa using fits), if_pos (by simpa using fits)]
  | succ fuel ih => rw [decDigits, decDigits, Nat.add_right_comm fuel 1 extra, ih (n := n / 10) (by omega)]

/-- A number with more than `k` digits is written as the text of its leading part, then its low `k` digits. -/
theorem decDigits_append_paddedDigits (fuel : Nat) {k n : Nat} (long : 10 ^ k ≤ n) :
    decDigits (fuel + k) n = decDigits fuel (n / 10 ^ k) ++ paddedDigits k n := by
  induction k generalizing n with
  | zero => simp [paddedDigits]
  | succ k ih =>
    have many : ¬n < 10 := by
      have := Nat.pow_pos (n := k) (show 0 < 10 by decide)
      omega
    rw [← Nat.add_assoc, decDigits, if_neg many, ih (n := n / 10) (by omega), paddedDigits, List.append_assoc,
      Nat.div_div_eq_div_mul, ← pow_succ']

/-! ### The decimal text of a value (44_decimal R130) -/

theorem toNat_lt_ten_pow_39 (a : U128) : a.toNat < 10 ^ 39 := a.isLt.trans (by norm_num)

theorem dec_getElem {n i : Nat} (h : i < (dec n).length) : (dec n)[i] = n / 10 ^ ((dec n).length - 1 - i) % 10 :=
  (List.getElem_of_eq (decDigits_eq_paddedDigits 39 n) h).trans (paddedDigits_getElem n _)

theorem dec_lt_ten {n d : Nat} (h : d ∈ dec n) : d < 10 := decDigits_lt_ten h

theorem one_le_dec_length (a : U128) : 1 ≤ (dec a.toNat).length := by
  obtain ⟨d, ds, text, -⟩ := dec_leading a
  simp [text]

theorem dec_length_minimal (n : Nat) : (dec n).length = 1 ∨ 10 ^ ((dec n).length - 1) ≤ n := by
  obtain rfl | pos := Nat.eq_zero_or_pos n
  · exact .inl rfl
  · right
    have top : 10 ^ (dec n).length ≤ 10 * n := pow_decDigits_length_le 39 pos
    cases hlen : (dec n).length with
    | zero => exact pos
    | succ k =>
      rw [hlen] at top
      rw [Nat.add_sub_cancel]
      omega

theorem numeral_dec {n : Nat} (fits : n < 10 ^ 39) : numeral (dec n) = n := by
  rw [dec, decDigits_eq_paddedDigits, numeral_paddedDigits, Nat.mod_eq_of_lt (lt_pow_decDigits_length fits)]

theorem dec_zero_or_leading {n : Nat} (fits : n < 10 ^ 39) : dec n = [0] ∨ ∃ d rest, dec n = d :: rest ∧ d ≠ 0 := by
  obtain rfl | pos := Nat.eq_zero_or_pos n
  · exact .inl rfl
  · obtain ⟨d, rest, text, leading⟩ := decDigits_leading_pos pos fits
    exact .inr ⟨d, rest, text, leading.ne'⟩

/-- A number of more than 19 digits is its leading part's text and its low 19 digits (44_decimal R132). -/
theorem dec_append_group {n : Nat} (fits : n < 10 ^ 39) (long : 10 ^ 19 ≤ n) :
    dec n = dec (n / 10 ^ 19) ++ paddedDigits 19 (n % 10 ^ 19) := by
  have leading : dec (n / 10 ^ 19) = decDigits 20 (n / 10 ^ 19) :=
    decDigits_more_fuel 19 (Nat.div_lt_of_lt_mul (by rwa [← pow_add]))
  rw [leading, paddedDigits_mod]
  exact decDigits_append_paddedDigits 20 long

/-! ### The conversion by groups (44_decimal R132) -/

theorem groupBase_toNat : groupBase.toNat = 10 ^ 19 := by decide

theorem decGroups_succ (fuel : Nat) (v : U128) : decGroups (fuel + 1) v
    = v.toNat % 10 ^ 19 :: if v.toNat < 10 ^ 19 then [] else decGroups fuel (quotient64 v groupBase) := by
  have done : quotient64 v groupBase = 0#128 ↔ v.toNat < 10 ^ 19 := by
    rw [← BitVec.toNat_inj, quotient64_toNat, groupBase_toNat, BitVec.toNat_ofNat, Nat.zero_mod]
    exact Nat.div_eq_zero_iff_lt (by norm_num)
  rw [decGroups, remainder64_toNat v (by decide), groupBase_toNat]
  simp only [done]

/-- Under a leading group the others are padded. -/
theorem groupsText_cons (g : Nat) {gs : List Nat} (more : gs ≠ []) :
    groupsText (g :: gs) = groupsText gs ++ paddedDigits 19 g := by
  cases gs with
  | nil => exact absurd rfl more
  | cons => rfl

theorem groupsText_decGroups {fuel : Nat} {v : U128} (fits : v.toNat < (10 ^ 19) ^ (fuel + 1)) :
    groupsText (decGroups (fuel + 1) v) = dec v.toNat := by
  induction fuel generalizing v with
  | zero =>
    rw [zero_add, pow_one] at fits
    rw [decGroups_succ, if_pos fits, Nat.mod_eq_of_lt fits, groupsText]
  | succ fuel ih =>
    rw [decGroups_succ]
    split
    next single => rw [Nat.mod_eq_of_lt single, groupsText]
    next long =>
      have rest : (quotient64 v groupBase).toNat = v.toNat / 10 ^ 19 := by rw [quotient64_toNat, groupBase_toNat]
      have more : decGroups (fuel + 1) (quotient64 v groupBase) ≠ [] := by rw [decGroups_succ]; exact List.cons_ne_nil _ _
      have fewer : (quotient64 v groupBase).toNat < (10 ^ 19) ^ (fuel + 1) := by
        rw [rest]
        exact Nat.div_lt_of_lt_mul (by rwa [← pow_succ'])
      rw [groupsText_cons _ more, ih fewer, rest, ← dec_append_group (toNat_lt_ten_pow_39 v) (Nat.not_lt.mp long)]

/-- Settles O57: three groups of 19 digits hold every value. -/
theorem referenceDecimalIsTheText : Obligations.ReferenceDecimalIsTheText := fun a =>
  groupsText_decGroups (a.isLt.trans (by norm_num))

/-! ### The text in DECBUF (44_decimal R131, R133) -/

theorem decByte_dec_eq (n i : Nat) : decByte (dec n) i
    = if i < (dec n).length then 0x30#8 + BitVec.ofNat 8 (n / 10 ^ ((dec n).length - 1 - i) % 10) else 0x00#8 := by
  split
  next inside => rw [decByte_of_lt inside, dec_getElem, digitByte]
  next outside => exact decByte_of_ge (Nat.not_lt.mp outside)

/-- The bytes of a text that fits DECBUF are its digits. -/
theorem digits_of_decBufOf {t : List Nat} (digits : ∀ d ∈ t, d < 10) (fits : t.length ≤ 40) :
    ((decBufOf t).toList.take t.length).map (fun byte => byte.toNat - 0x30) = t := by
  apply List.ext_getElem
  · simpa using fits
  · intro i _ inside
    have digit : t[i] < 10 := digits _ (List.getElem_mem inside)
    simp [decBufOf_getElem, decByte_of_lt inside, digitByte_toNat digit]

@[simp] theorem completeBin2dec_decLen_toNat (a : U128) (s : State) :
    (completeBin2dec a s).decLen.toNat = (dec a.toNat).length :=
  declen_toNat a.toNat

@[simp] theorem completeBin2dec_decBuf (a : U128) (s : State) : (completeBin2dec a s).decBuf = decBufOf (dec a.toNat) := rfl

/-- Settles O58: the text's digits by position are the numeral's, and DECBUF holds the text. -/
theorem decimalRoundTrip : Obligations.DecimalRoundTrip := by
  refine ⟨fun n small => ?_, fun a s => ?_⟩
  · have fits : n < 10 ^ 39 := small.trans (by norm_num)
    exact ⟨numeral_dec fits, fun _ => dec_lt_ten, dec_zero_or_leading fits, dec_length_le n⟩
  · have short := dec_length_le a.toNat
    rw [completeBin2dec_decLen_toNat, completeBin2dec_decBuf, digits_of_decBufOf (fun _ => dec_lt_ten) (by omega),
      numeral_dec (toNat_lt_ten_pow_39 a)]

/-! ### The command -/

/-- The completion as a change of the state: the text, its marks, the flags and the latch (44_decimal R131). -/
theorem completeBin2dec_eq (a : U128) (s : State) : completeBin2dec a s = { s with
    decLen := BitVec.ofNat 32 (dec a.toNat).length, decBuf := decBufOf (dec a.toNat), decMarks := BitVec.allOnes 40
    c := false, v := false, busy := false, pending := none } := rfl

/-- A byte of the window outside DECBUF depends on the operand registers and their marks alone. -/
theorem windowByte_congr_outside_decBuf {s t : State} (x : t.x = s.x) (marks : t.xMarks = s.xMarks) {off : Nat}
    (outside : ¬(0x120 ≤ off ∧ off < 0x148)) : windowByte t off = windowByte s off := by
  by_cases operand : off < 0x100
  · have reg_eq : t.reg = s.reg := funext fun r => by rw [State.reg, State.reg, x]
    have marks_eq : t.marks = s.marks := funext fun r => by rw [State.marks, State.marks, marks]
    simp only [windowByte, operand, dite_true, reg_eq, marks_eq]
  · simp only [windowByte, operand, outside, dite_false]

/-- Settles O33. -/
theorem decimalCompletionFrame : Obligations.DecimalCompletionFrame := by
  intro p s decimal
  rw [complete_bin2dec decimal]
  exact ⟨fun _ => windowByte_congr_outside_decBuf (s := s) (t := completeBin2dec p.a s) rfl rfl, completeBin2dec_eq p.a s⟩

/-- Settles O19: accepted as a unary command; its completion writes the text's digits by position. -/
theorem bin2decRunsToItsText : Obligations.Bin2decRunsToItsText := by
  intro rs1 s ready written
  refine ⟨submitUnary_accepted ready written .bin2dec 0, _, unitStep_withPending .bin2dec 0 (s.reg rs1) 0#128 s, ?_⟩
  rw [complete_bin2dec rfl]
  refine ⟨completeBin2dec_eq _ _, ?_⟩
  simp only [completeBin2dec_decLen_toNat, completeBin2dec_decBuf, decBufOf_getElem]
  exact ⟨one_le_dec_length _, dec_length_le _, lt_pow_decDigits_length (toNat_lt_ten_pow_39 _), dec_length_minimal _,
    fun i _ => decByte_dec_eq _ i⟩

end Sys2Proof.Machine
end

section
/-!
PROOFS. Faults (60_exceptions R140 to R148): the checks of a write in their order, what recording a fault changes, that the
unit step commutes with it, and that a halted unit stays as it is until reset.
-/

namespace Sys2Proof.Machine

/-! ### The first two checks of a write (60_exceptions R142, R144, R146) -/

theorem exec_eq_whenReady (i : Instr) (s : State) : ∃ k, exec i s = whenReady s k := by
  cases i with
  | _ => exact ⟨_, rfl⟩

/-- Every CMD write, of a legal word or not, begins with the checks of HALT and BUSY. -/
theorem cmdWrite_eq_whenReady (w : Word32) (s : State) : ∃ k, cmdWrite w s = whenReady s k := by
  unfold cmdWrite
  split
  · exact exec_eq_whenReady _ s
  · exact ⟨_, rfl⟩

theorem cmdWrite_halted {s : State} (halted : s.halt = true) (w : Word32) : cmdWrite w s = .next s := by
  obtain ⟨k, checks⟩ := cmdWrite_eq_whenReady w s
  rw [checks, whenReady_halted halted]

theorem cmdWrite_busy {s : State} (running : s.halt = false) (busy : s.busy = true) (w : Word32) :
    cmdWrite w s = .next (withFault 3#4 0x100#32 s) := by
  obtain ⟨k, checks⟩ := cmdWrite_eq_whenReady w s
  rw [checks, whenReady_busy running busy]

theorem writeOperands_halted {s : State} (halted : s.halt = true) (off : Offset) (n : Size) (v : Word) :
    writeOperands off n v s = s :=
  if_pos halted

theorem writeOperands_busy {s : State} (running : s.halt = false) (busy : s.busy = true) (off : Offset) (n : Size) (v : Word) :
    writeOperands off n v s = withFault 3#4 (off.setWidth 32) s := by
  simp [writeOperands, running, busy, recordFault_running _ _ running, causeCode]

theorem writeOperands_ready {s : State} (ready : Ready s) (off : Offset) (n : Size) (v : Word) :
    writeOperands off n v s = storeBytes off.toNat v (sizeBytes n) s := by
  obtain ⟨running, idle⟩ := ready
  simp [writeOperands, running, idle]

/-! ### The checks of a command on a ready unit (60_exceptions R140, R146) -/

/-- On a ready unit a division by 0 records DivideByZero (43_division R110). -/
theorem division_by_zero {s : State} (ready : Ready s) (op : Op) (w : Word32) (rd : Reg) (a : U128) :
    whenReady s (acceptDivision op w rd (some a) (some 0#128) s) = .next (withFault 1#4 w s) := by
  rw [whenReady_ready ready, acceptDivision, if_pos rfl, recordFault_running _ _ ready.1, causeCode]

theorem submitDivision_by_zero {s : State} (ready : Ready s) {rs1 rs2 : Reg} (written : FullyWritten rs1 s)
    (written' : FullyWritten rs2 s) (zero : (s.reg rs2).toNat = 0) (op : Op) (w : Word32) (rd : Reg) :
    submitDivision op w rd rs1 rs2 s = .next (withFault 1#4 w s) := by
  have divisor : s.reg rs2 = 0#128 := BitVec.eq_of_toNat_eq zero
  rw [submitDivision, fullOperand_written written, fullOperand_written written', divisor, division_by_zero ready]

theorem submitDivision64_by_zero {s : State} (ready : Ready s) {rs1 rs2 : Reg} (written : FullyWritten rs1 s)
    (low : LowWritten rs2 s) (zero : (lo (s.reg rs2)).toNat = 0) (op : Op) (w : Word32) (rd : Reg) :
    submitDivision64 op w rd rs1 rs2 s = .next (withFault 1#4 w s) := by
  have divisor : from64 (lo (s.reg rs2)) = 0#128 := BitVec.eq_of_toNat_eq ((from64_toNat _).trans zero)
  rw [submitDivision64, fullOperand_written written, mixedOperand_written low, divisor, division_by_zero ready]

theorem exec_divideByZero {i : Instr} {s : State} (division : isDivision i = true) (ready : Ready s)
    (written : OperandsWritten i s) (zero : secondValue i s = 0) : exec i s = .next (withFault 1#4 (encode i) s) := by
  obtain ⟨one, full, low⟩ := written
  cases i with
  | div _ _ rs2 | mod _ _ rs2 => exact submitDivision_by_zero ready one (full rs2 rfl) zero _ _ _
  | div64 _ _ rs2 | mod64 _ _ rs2 => exact submitDivision64_by_zero ready one (low rs2 rfl) zero _ _ _
  | _ => cases division

/-- A command that passes every check is accepted (30_encoding R70). -/
theorem exec_accepted {i : Instr} {s : State} (ready : Ready s) (written : OperandsWritten i s)
    (nonzero : isDivision i = true → secondValue i s ≠ 0) : ∃ op rd a b, exec i s = .next (withPending op rd a b s) := by
  obtain ⟨one, full, low⟩ := written
  cases i with
  | add rd _ rs2 | sub rd _ rs2 | mul rd _ rs2 =>
    exact ⟨_, rd, _, _, submitFull_accepted ready one (full rs2 rfl) _ rd⟩
  | add64 rd _ rs2 | sub64 rd _ rs2 | mul64 rd _ rs2 =>
    exact ⟨_, rd, _, _, submitMixed_accepted ready one (low rs2 rfl) _ rd⟩
  | div rd _ rs2 | mod rd _ rs2 =>
    exact ⟨_, rd, _, _, submitDivision_accepted ready one (full rs2 rfl) (Nat.pos_of_ne_zero (nonzero rfl)) _ _ rd⟩
  | div64 rd _ rs2 | mod64 rd _ rs2 =>
    exact ⟨_, rd, _, _, submitDivision64_accepted ready one (low rs2 rfl) (Nat.pos_of_ne_zero (nonzero rfl)) _ _ rd⟩
  | lzc | bin2dec => exact ⟨_, _, _, _, submitUnary_accepted ready one _ _⟩

/-- Settles O20: the four divisions by their operand forms, the others by what a submission can answer. -/
theorem zeroDivisorRaisesDivideByZero : Obligations.ZeroDivisorRaisesDivideByZero := by
  refine ⟨fun i s => exec_divideByZero, fun i s t other running h halts => ?_⟩
  obtain ⟨halted, -⟩ | ⟨-, -, rfl⟩ | ⟨-, division, -⟩ | ⟨-, op, rd, a, b, -, rfl⟩ := exec_next h
  · cases running.symm.trans halted
  · rfl
  · cases other.symm.trans division
  · cases running.symm.trans halts

/-- Settles O25: one lemma for each check. -/
theorem checksAreMadeInOrder : Obligations.ChecksAreMadeInOrder := by
  refine ⟨fun off n v s illegal => hostWrite_illegal illegal v s, fun w s halted => cmdWrite_halted halted w,
    fun w s running busy => cmdWrite_busy running busy w, fun w s ready illegal => cmdWrite_illegal illegal ready,
    fun w i s ready decoded unwritten => ?_, fun w i s ready decoded written division zero => ?_,
    fun w i s ready decoded written nonzero => ?_, fun off n v s halted => writeOperands_halted halted off n v,
    fun off n v s running busy => writeOperands_busy running busy off n v⟩
  · rw [cmdWrite_legal decoded]
    exact (unwrittenOperandBytesStopACommand i s ready).mpr unwritten
  · rw [cmdWrite_legal decoded, exec_divideByZero division ready written zero, encode_of_decode decoded]
  · rw [cmdWrite_legal decoded]
    exact exec_accepted ready written nonzero

/-! ### Recording a fault and the unit step (60_exceptions R142, R143) -/

/-- `t` has the HALT, CAUSE and FAULTINFO of `s`. -/
def SameFault (s t : State) : Prop := t.halt = s.halt ∧ t.cause = s.cause ∧ t.faultInfo = s.faultInfo

theorem complete_sameFault (p : Pending) (s : State) : SameFault s (complete p s) := by
  obtain ⟨-, w, c, v, -, h⟩ | ⟨-, h⟩ := complete_cases p s <;> rw [h] <;> exact ⟨rfl, rfl, rfl⟩

theorem unitStep_sameFault (s : State) : SameFault s (unitStep s) := by
  unfold unitStep
  split
  · exact complete_sameFault _ s
  · exact ⟨rfl, rfl, rfl⟩

theorem complete_withFault (p : Pending) (code : BitVec 4) (info : Word32) (s : State) :
    complete p (withFault code info s) = withFault code info (complete p s) := by
  unfold complete
  split <;> rfl

@[simp] theorem withFault_busy (code : BitVec 4) (info : Word32) (s : State) : (withFault code info s).busy = s.busy := rfl

@[simp] theorem withFault_pending (code : BitVec 4) (info : Word32) (s : State) :
    (withFault code info s).pending = s.pending := rfl

theorem unitStep_withFault (code : BitVec 4) (info : Word32) (s : State) :
    unitStep (withFault code info s) = withFault code info (unitStep s) := by
  simp only [unitStep, withFault_busy, withFault_pending]
  split
  · exact complete_withFault _ code info s
  · rfl

theorem unitStep_recordFault (cause : Cause) (info : Word32) (s : State) :
    unitStep (recordFault cause info s) = recordFault cause info (unitStep s) := by
  obtain ⟨kept, -, -⟩ := unitStep_sameFault s
  obtain halted | running := Bool.eq_false_or_eq_true s.halt
  · rw [recordFault_halted _ _ halted, recordFault_halted _ _ (kept.trans halted)]
  · rw [recordFault_running _ _ running, recordFault_running _ _ (kept.trans running), unitStep_withFault]

/-- Settles O22. -/
theorem writesWhileBusyRaiseWriteWhileBusy : Obligations.WritesWhileBusyRaiseWriteWhileBusy := fun s running busy =>
  ⟨cmdWrite_busy running busy, writeOperands_busy running busy, fun code info => unitStep_withFault code info s⟩

/-- A CMD write that makes the unit halt records a fault and does nothing else: an accepted command does not halt it. -/
theorem cmdWrite_halts {w : Word32} {s t : State} (running : s.halt = false) (h : cmdWrite w s = .next t)
    (halts : t.halt = true) : ∃ code info, t = withFault code info s := by
  cases decoded : decode w with
  | ok i =>
    rw [cmdWrite_legal decoded] at h
    obtain ⟨halted, -⟩ | ⟨-, -, fault⟩ | ⟨-, -, fault⟩ | ⟨-, op, rd, a, b, -, rfl⟩ := exec_next h
    · cases running.symm.trans halted
    · exact ⟨_, _, fault⟩
    · exact ⟨_, _, fault⟩
    · cases running.symm.trans halts
  | error e =>
    rw [cmdWrite, decoded] at h
    obtain ⟨halted, -⟩ | ⟨-, -, fault⟩ | ⟨-, h⟩ := whenReady_next h
    · cases running.symm.trans halted
    · exact ⟨_, _, fault⟩
    · injection h with h
      exact ⟨_, _, h.symm.trans (recordFault_running _ _ running)⟩

theorem storeBytes_halt (off : Nat) (v : Word) (n : Nat) (s : State) : (storeBytes off v n s).halt = s.halt := by
  rw [storeBytes_keeps]

/-- An operand write that makes the unit halt records a fault and does nothing else: bytes stored do not halt it. -/
theorem writeOperands_halts {off : Offset} {n : Size} {v : Word} {s : State} (running : s.halt = false)
    (halts : (writeOperands off n v s).halt = true) : ∃ code info, writeOperands off n v s = withFault code info s := by
  obtain busy | idle := Bool.eq_false_or_eq_true s.busy
  · exact ⟨_, _, writeOperands_busy running busy off n v⟩
  · rw [writeOperands_ready ⟨running, idle⟩, storeBytes_halt] at halts
    cases running.symm.trans halts

/-- Settles O24: whatever makes the unit halt is `withFault` of the state before. -/
theorem faultsArePrecise : Obligations.FaultsArePrecise := by
  refine ⟨fun cause info s running => ?_, fun w s t running h halts => ?_, fun off n v s running halts => ?_,
    unitStep_recordFault⟩
  · rw [recordFault_running _ _ running]
    cases cause <;> rfl
  · obtain ⟨code, info, rfl⟩ := cmdWrite_halts running h halts
    rfl
  · obtain ⟨code, info, fault⟩ := writeOperands_halts running halts
    rw [fault]
    rfl

/-! ### The halted unit (60_exceptions R144, R148) -/

/-- A legal read of STATUS is one at `0x104` (20_memory R41, R44). -/
theorem legalRow_status {off : Offset} {n : Size} (h : legalRow off n .read = some .status) : off = 0x104#9 := by
  obtain ⟨-, allowed, row, mem, kind, first, last⟩ := legalRow_some h
  have size : n = .b4 := by simpa [rowAllows] using allowed
  subst size
  simp only [addressMap, List.mem_cons, List.not_mem_nil, or_false] at mem
  rcases mem with rfl | rfl | rfl | rfl | rfl | rfl | rfl | rfl | rfl
  case inr.inr.inl =>
    simp only [sizeBytes] at first last
    bv_omega
  all_goals cases kind

/-- A read of anything but STATUS does not look at HALT. -/
theorem readWindow_ignores_halt {off : Offset} {n : Size} {s s' : State} {v : Word} (halt : Bool) (other : off ≠ 0x104#9)
    (h : readWindow off n s = .next (v, s')) :
    readWindow off n { s with halt := halt } = .next (v, { s' with halt := halt }) := by
  cases legal : legalRow off n .read with
  | none => simp [readWindow, legal] at h
  | some kind =>
    cases known : readsPendingResult kind off s with
    | true =>
      rw [readWindow_pendingResult legal known] at h
      cases h
      exact readWindow_pendingResult (s := { s with halt := halt }) legal known
    | false =>
      rw [readWindow_legal legal] at h ⊢
      obtain bytes | rfl | word := legalRow_read_kind legal
      · have same : windowBytes { s with halt := halt } off.toNat (sizeBytes n) = windowBytes s off.toNat (sizeBytes n) :=
          windowBytes_congr (s := s) (t := { s with halt := halt }) (windowByte_congr rfl rfl rfl rfl) _ _
        cases value : windowBytes s off.toNat (sizeBytes n) with
        | none => cases (readRow_unwritten bytes known value).symm.trans h
        | some w =>
          cases (readRow_written bytes known value).symm.trans h
          exact readRow_written (s := { s with halt := halt }) bytes known (same.trans value)
      · exact absurd (legalRow_status legal) other
      · cases (readRow_word word known).symm.trans h
        rw [readRow_word (s := { s with halt := halt }) word known]
        obtain rfl | rfl | rfl := word <;> rfl

/-- Bit 1 of STATUS is HALT, whether or not the unit is busy (10_state R22, 20_memory R47). -/
theorem readWindow_status_halt (s : State) : ∃ v s', readWindow 0x104#9 .b4 s = .next (v, s') ∧ v.getLsbD 1 = s.halt := by
  have bit : ∀ w : Word32, (w.setWidth 64).getLsbD 1 = w.getLsbD 1 := fun w => by simp
  obtain busy | idle := Bool.eq_false_or_eq_true s.busy
  · obtain ⟨-, halt, -⟩ := busyStatusWord_layout busy
    exact ⟨_, _, readWindow_status_busy busy, (bit _).trans halt⟩
  · obtain ⟨-, halt, -⟩ := statusWord_layout idle
    exact ⟨_, _, readWindow_status_idle idle, (bit _).trans halt⟩

/-- Settles O23. -/
theorem haltedUnitIgnoresWrites : Obligations.HaltedUnitIgnoresWrites := by
  intro s halted
  refine ⟨cmdWrite_halted halted, writeOperands_halted halted, fun off n v s' other h => ?_, ?_,
    fun p => unitStep_pending, fun off n v illegal => hostWrite_illegal illegal v s,
    fun off n illegal => hostRead_illegal illegal s⟩
  · have same : s = { { s with halt := false } with halt := true } := by rw [← halted]
    rw [same]
    exact readWindow_ignores_halt true other h
  · rw [← halted]
    exact readWindow_status_halt s

/-- A write to a halted unit is a bus error or is ignored, answered ok (60_exceptions R144). -/
theorem hostWrite_halted {off : Offset} {n : Size} {v : Word} {s t : State} (halted : s.halt = true)
    (h : hostWrite off n v s = .next t) : t = s.answer .ok := by
  unfold hostWrite at h
  split at h
  · rw [cmdWrite_halted (s := s.answer .ok) halted] at h
    injection h with h
    exact h.symm
  · rw [writeOperands_halted (s := s.answer .ok) halted] at h
    injection h with h
    exact h.symm
  · cases h

theorem readWindow_sameUnit {off : Offset} {n : Size} {s s' : State} {v : Word}
    (h : readWindow off n s = .next (v, s')) : SameUnit s s' := by
  obtain rfl | rfl := readWindow_keeps h <;> rfl

theorem hostRead_sameUnit {off : Offset} {n : Size} {s t : State} (h : hostRead off n s = .next t) : SameUnit s t := by
  unfold hostRead at h
  split at h
  · next value =>
    injection h with h
    have same := readWindow_sameUnit value
    rw [SameUnit] at same
    rw [← h, same]
    rfl
  · cases h
  · cases h

theorem hostWait_sameUnit {s t : State} (h : hostWait s = .next t) : SameUnit s t := by
  unfold hostWait at h
  split at h
  · next value =>
    injection h with h
    have same := readWindow_sameUnit value
    rw [SameUnit] at same
    rw [← h, same]
    split <;> rfl
  · cases h
  · cases h

theorem SameUnit.sameFault {s t : State} (h : SameUnit s t) : SameFault s t := by
  rw [SameUnit] at h
  rw [h]
  exact ⟨rfl, rfl, rfl⟩

/-- No line of the host but reset changes what a halted unit has recorded. -/
theorem performLine_sameFault {line : HostLine} {s t : State} (h : performLine line s = .next t) (halted : s.halt = true) :
    SameFault s t ∨ line = .reset := by
  cases line with
  | write off n v =>
    rw [hostWrite_halted halted h]
    exact .inl (sameUnit_answer s .ok).sameFault
  | read off n => exact .inl (hostRead_sameUnit h).sameFault
  | wait => exact .inl (hostWait_sameUnit h).sameFault
  | reset => exact .inr rfl

theorem SameFault.keeps_halted {s t : State} (same : SameFault s t) (halted : s.halt = true) :
    t.halt = true ∧ t.cause = s.cause ∧ t.faultInfo = s.faultInfo := by
  obtain ⟨halt, recorded⟩ := same
  exact ⟨halt.trans halted, recorded⟩

/-- Settles O26, by the agent that moves. -/
theorem onlyResetLeavesTheHaltedState : Obligations.OnlyResetLeavesTheHaltedState := by
  intro s t h halted
  obtain ⟨turns, ⟨-, rfl⟩ | ⟨-, -, rfl⟩ | ⟨turn, line, rest, host, performed⟩⟩ := step_cases h
  · have same : SameFault s _ := unitStep_sameFault { s with turns := turns }
    exact .inl (same.keeps_halted halted)
  · exact .inl ⟨halted, rfl, rfl⟩
  · obtain same | rfl := performLine_sameFault performed halted
    · exact .inl (same.keeps_halted halted)
    · exact .inr ⟨turn, rest, host⟩

end Sys2Proof.Machine
end

section
/-!
PROOFS. The encoding table of 95_test_vectors section 2, whose words are derived there from the field layout of 30_encoding
R60 and the opcode map R64.
-/

namespace Sys2Proof

theorem decode_of_encode_eq {w : Word32} {i : Instr} (encoded : encode i = w) : decode w = .ok i := by
  rw [← encoded, decode_encode]

end Sys2Proof

namespace Sys2Proof.Machine

/-- Settles O4: each word of the table is what R60's layout packs for its command, and the decoder undoes the packing. -/
theorem specWordsDecode : Obligations.SpecWordsDecode := by
  unfold Obligations.SpecWordsDecode
  and_intros <;> exact decode_of_encode_eq rfl

end Sys2Proof.Machine
end
